-- ==== Sys2Proof/Word.lean ====
section
/-! DEFINITION. The entry and register widths of the block, and the sparse memory type. -/

namespace Sys2Proof

/-- An entry of REF, TGT or TOK, and a byte of a token (10_state.md R26). -/
abbrev Byte := BitVec 8

/-- A control register as the host sees it and an entry of COST, 32 bits (R20, R26). -/
abbrev Word := BitVec 32

/-- An offset, `IDX_W = 18` bits (00_scope.md R7). -/
abbrev Offset := BitVec 18

/-- A reference address, `ADDR_W = 17` bits (00_scope.md R6). -/
abbrev RefAddr := BitVec 17

/-- A 7-bit quantity: run and extension lengths, TOKLEN entries (10_state.md R13, R26). -/
abbrev Len := BitVec 7

/-- One memory space with entries of width `w`: the entries written since reset, as
(index, entry) pairs in strictly rising index order. An index not listed has no value. -/
abbrev Memory (w : Nat) := List (Nat × BitVec w)

end Sys2Proof
end

