-- ==== Sys2Proof/Syntax.lean ====
section
/-! DEFINITION. The tokens: one constructor per row of spec/opcode_table.json. -/

namespace Sys2Proof

/-- A token (30_encoding.md R60, R70). -/
inductive Instr where
  /-- LIT1, format L1 (R61): `x` is the payload, reference byte xor target byte. -/
  | lit1 (x : Byte)
  /-- LIT2, format L2 (R62): two payload bytes. -/
  | lit2 (x0 x1 : Byte)
  /-- EXACT, format X (R63): the match length, 1 to 63, and the reference address. -/
  | exactMatch (len : Nat) (addr : RefAddr)
  /-- APPROX, format A (R64): the match length, 1 to 64, the reference address, the bitmap bytes
  and the patch bytes. -/
  | approxMatch (len : Nat) (addr : RefAddr) (bitmap patches : List Byte)
deriving DecidableEq, Repr

end Sys2Proof
end

