-- ==== Sys2Proof/Decode.lean ====
section
/-! DEFINITION. The token decoder, total on any byte list, and the encoder (30_encoding.md R60 to
R75), with the host's view of the decoder on a table word. -/

namespace Sys2Proof

/-- `ceil8(k)`, the least number of bytes holding `k` bits (00_scope.md section 5). -/
def ceil8 (k : Nat) : Nat := (k + 7) >>> 3

/-- The number of 1 bits of a byte (00_scope.md section 5). -/
def popcount (b : Byte) : Nat := (List.range 8).countP (fun q => b.getLsbD q)

/-- The number of 1 bits of a bitmap, `P` of R64 and R75. -/
def popcounts (bm : List Byte) : Nat := (bm.map popcount).sum

/-- Tag of an EXACT token: `0x02 + ((length - 1) << 1) + AH` (R65). -/
def exactTag (len : Nat) (ah : Bool) : Byte :=
  BitVec.ofNat 8 (0x02 + ((len - 1) <<< 1) + ah.toNat)

/-- Tag of an APPROX token: `0x80 + ((length - 1) << 1) + AH` (R66). -/
def approxTag (len : Nat) (ah : Bool) : Byte :=
  BitVec.ofNat 8 (0x80 + ((len - 1) <<< 1) + ah.toNat)

/-- Length of an EXACT token from its tag: `tag[7:1]` (R65). -/
def exactLen (tag : Byte) : Nat := (tag.extractLsb' 1 7).toNat

/-- Length of an APPROX token from its tag: `tag[6:1] + 1` (R66). -/
def approxLen (tag : Byte) : Nat := (tag.extractLsb' 1 6).toNat + 1

/-- `AH = address[16]` (R68). -/
def addrHigh (a : RefAddr) : Bool := a.getLsbD 16

/-- `AL = address[7:0]` (R68). -/
def addrLow (a : RefAddr) : Byte := a.extractLsb' 0 8

/-- `AM = address[15:8]` (R68). -/
def addrMid (a : RefAddr) : Byte := a.extractLsb' 8 8

/-- `address = AH || AM || AL`, with AH in bit 0 of the tag (R68). -/
def addrOf (tag al am : Byte) : RefAddr := tag.extractLsb' 0 1 ++ (am ++ al)

/-- Why the decoder has no token to give: the stream is exhausted, or it ends inside a token
(30_encoding.md R76, R85; 93_implementation_defined.md U19). No tag is illegal (R71). -/
inductive DecodeError where
  /-- The byte sequence is empty. -/
  | endOfStream
  /-- The byte sequence ends inside the token its tag begins. -/
  | truncated
deriving DecidableEq, Repr

/-- The bytes of an APPROX token after its header (R64): bitmap, then one patch byte per 1 bit. -/
def decodeApproxBody (len : Nat) (addr : RefAddr) (bs : List Byte) :
    Except DecodeError (Instr × List Byte) :=
  let b := ceil8 len
  let bm := bs.take b
  let p := popcounts bm
  if bs.length < b + p then .error .truncated
  else .ok (.approxMatch len addr bm ((bs.drop b).take p), bs.drop (b + p))

/-- The token a byte sequence begins with, and the bytes after it: the tag alone selects the
format (R60, R70). -/
def decode : List Byte → Except DecodeError (Instr × List Byte)
  | [] => .error .endOfStream
  | tag :: bs =>
    if tag.toNat = 0x00 then
      match bs with
      | x :: rest => .ok (.lit1 x, rest)
      | _ => .error .truncated
    else if tag.toNat = 0x01 then
      match bs with
      | x0 :: x1 :: rest => .ok (.lit2 x0 x1, rest)
      | _ => .error .truncated
    else
      match bs with
      | al :: am :: rest =>
        if tag.toNat ≤ 0x7F then .ok (.exactMatch (exactLen tag) (addrOf tag al am), rest)
        else decodeApproxBody (approxLen tag) (addrOf tag al am) rest
      | _ => .error .truncated

/-- The bytes of a token (R61 to R64). -/
def encode : Instr → List Byte
  | .lit1 x => [0x00, x]
  | .lit2 x0 x1 => [0x01, x0, x1]
  | .exactMatch len addr => [exactTag len (addrHigh addr), addrLow addr, addrMid addr]
  | .approxMatch len addr bm ps =>
    [approxTag len (addrHigh addr), addrLow addr, addrMid addr] ++ bm ++ ps

/-- The length of the token that starts at byte 0 of a byte sequence, computed from the token's
own bytes (R75); a byte past the end counts as 0. -/
def toklen (t : List Byte) : Nat :=
  let tag := t.getD 0 0
  if tag.toNat = 0x00 then 2
  else if tag.toNat = 0x01 then 3
  else if tag.toNat ≤ 0x7F then 3
  else
    let b := ceil8 (approxLen tag)
    3 + b + popcounts ((t.drop 3).take b)

/-- The length in bytes of the longest token of the format (R75). -/
def longestToken : Nat := 75

/-- A table word laid out as the bytes of a stream: byte `k` is bits `8k+7 .. 8k` of `w`, the bits
at and above `nbits` are 0, up to the longest token. -/
def bytesOfTableWord (nbits w : Nat) : List Byte :=
  (List.range longestToken).map (fun k => BitVec.ofNat 8 ((w % 2 ^ nbits) >>> (8 * k)))

/-- The token the decoder reads from a table word. -/
def decodeTableWord (nbits w : Nat) : Option Instr :=
  match decode (bytesOfTableWord nbits w) with
  | .ok (i, _) => some i
  | .error _ => none

end Sys2Proof
end

