-- ==== Sys2Proof/Config.lean ====
section
/-! DEFINITION. The parameters of the block (00_scope.md R5 to R7) and the free values. -/

namespace Sys2Proof.Config

/-- Largest legal buffer length (R5). -/
def NMAX : Nat := 0x20000

/-- Cap of run and extension length (R6). -/
def LMAX : Nat := 64

/-- Bytes of a single-byte literal token (R6). -/
def LIT_SIZE : Nat := 2

/-- Bytes of a match token's header (R6). -/
def HDR_SIZE : Nat := 3

/-- The base of the cost recurrence, the value of `COST[N]` (R7, 41_cost_builder.md R110, R111). -/
def COST_END : Nat := 0

/-- Longest exact match the block emits (R7, 41_cost_builder.md R122). -/
def EXACT_LMAX : Nat := 63

/-- Capacity in bytes of one TOK entry and of TB (R7). -/
def TOKCAP : Nat := 75

/-- Clock cycles of one offset step: the open parameter `STEP_CYCLES` (R7). No rule and no
definition of this model depends on it (70_reset_and_hazards.md R193). -/
opaque STEP_CYCLES : Nat

/-- FREE VALUE: an unspecified value of `w` bits, given by the model's counter `fresh`, a space
tag and an entry index (93_implementation_defined.md U6 to U9, U13, U14). It has no body, so no
proof can use what it is. Log entry 4. -/
opaque unspecified (w fresh space index : Nat) : BitVec w

end Sys2Proof.Config
end

