-- ==== Sys2Proof/Machine/State.lean ====
section
/-! DEFINITION. The state of the block, of the consumer of its stream, and of the host; the
reasons a step can stop; the state after reset. Plain data. -/

namespace Sys2Proof.Machine

open Sys2Proof

/-- PHASE (10_state.md R15). The code 3 never occurs, so it has no constructor (U15). -/
inductive Phase where
  /-- 0: no valid result tables. -/
  | idle
  /-- 1: a run is in progress. -/
  | run
  /-- 2: a run has finished, the result tables are valid. -/
  | done
deriving DecidableEq, Repr

/-- The thirteen working registers (R13). -/
structure Work where
  /-- `I`, the offset being processed. -/
  i : Offset
  /-- `J`, the candidate reference index of the scan. -/
  j : Offset
  /-- `M`, the run length of `(I, J)`. -/
  m : Len
  /-- `LIM`, the bound of run and extension at `(I, J)`. -/
  lim : Len
  /-- `K`, the extension length under evaluation. -/
  k : Len
  /-- `D`, the mismatch count of the approximate candidate. -/
  d : Len
  /-- `S`, the total cost of the candidate under evaluation. -/
  s : Word
  /-- `BESTM`, the longest run length found so far in this scan. -/
  bestM : Len
  /-- `BESTJ`, the reference index of that run. -/
  bestJ : RefAddr
  /-- `C`, the running minimum cost for offset `I`. -/
  c : Word
  /-- `T`, the transition that achieves `C`. -/
  t : Offset
  /-- `TB`, the token bytes that achieve `C`: 75 bytes. -/
  tb : List Byte
  /-- `TL`, the number of valid bytes of `TB`. -/
  tl : Len
deriving DecidableEq, Repr

/-- The block DENC: control state, flags, registers, and six memory spaces (R15 to R30). CTRL
stores nothing (R21) and STATUS is a view (R23), so neither is a field. -/
structure Block where
  phase : Phase
  /-- CUR, register 3 (R16, R24). -/
  cur : Offset
  /-- NLEN, register 2 (R22). -/
  nlen : Offset
  /-- ERR_CFG, STATUS bit 2, sticky (R18). -/
  errCfg : Bool
  /-- ERR_BUSYWR, STATUS bit 3, sticky (R18). -/
  errBusyWr : Bool
  /-- Space 1, the reference buffer (R27). -/
  ref : Memory 8
  /-- Space 2, the target buffer (R27). -/
  tgt : Memory 8
  /-- Space 3, the cost table (R28). -/
  cost : Memory 32
  /-- Space 4, the transition table (R29). -/
  trans : Memory 18
  /-- Space 5, the token lengths (R30). -/
  toklen : Memory 7
  /-- Space 6, the token buffer (R30): byte `b` of entry `i` at key `75 * i + b`. -/
  tok : Memory 8
  /-- The working registers (R13). -/
  work : Work
deriving DecidableEq, Repr

/-- Why a consumer rejects its stream (30_encoding.md R82, R85; 93_implementation_defined.md U3, U4,
U5, U19). A rejection is the consumer's verdict; it stops neither the block nor the host. -/
inductive Reject where
  /-- The token is LIT2: the source fixes its length and nothing else, a model of a consumer refuses
  it (R82, U3) and "treats it as a failure" (92_eei_decisions.md D23). Log entry 8. -/
  | lit2
  /-- The token would write past `N` ("over-consumption", R85). -/
  | overrun
  /-- The token copies from past the end of the reference buffer (U5). -/
  | refWindow
  /-- A 1 in an unused bit of the last bitmap byte (U4). -/
  | padBit
  /-- The patch bytes are not one per 1 bit of the bitmap (R69); no decoded token is like this. -/
  | patchCount
  /-- The stream ends inside a token (U19); reported before any other reason. Log entry 24. -/
  | truncated
  /-- The stream ended with `o` not `N` ("under-consumption", R85). -/
  | underrun
deriving DecidableEq, Repr

/-- Where a consumer stands. -/
inductive Verdict where
  /-- No stream has been given to it. -/
  | idle
  /-- It is decoding, one token per step (R80). -/
  | decoding
  /-- The stream is exhausted and `o = N` (R76, R85). -/
  | success
  /-- It failed and reported why (R85). -/
  | failed (why : Reject)
deriving DecidableEq, Repr

/-- The consumer of a diff stream (30_encoding.md R80). Log entries 1 and 14. -/
structure Consumer where
  /-- The consumer's reference buffer `REF[0..N-1]`. -/
  ref : Memory 8
  /-- The common length `N` of REF and OUT. -/
  n : Nat
  /-- The part of the stream not yet read. -/
  stream : List Byte
  /-- The output buffer `OUT[0..N-1]`. -/
  out : Memory 8
  /-- The output cursor `o`. -/
  o : Nat
  verdict : Verdict
deriving DecidableEq, Repr

/-- What a host operation names: a space number, an entry index, and, for TOK alone, a byte of
the entry (43_control_and_host.md R163). -/
structure Target where
  space : Nat
  index : Nat
  byte : Nat := 0
deriving DecidableEq, Repr

/-- What happens next, in the order the host chooses. Host operations take effect between two
steps of the block (R163). Log entry 2. -/
inductive Event where
  /-- HostWrite (R157 to R159). -/
  | write (t : Target) (v : Word)
  /-- HostRead (R160 to R162). -/
  | read (t : Target)
  /-- Reset (70_reset_and_hazards.md R185). -/
  | reset
  /-- The host does nothing here: the block takes its enabled step, if it has one. -/
  | blockStep
  /-- The host does nothing here: the consumer takes its step, if it is decoding. -/
  | consumerStep
  /-- The host performs the read-out walk ASSEMBLE (R166). -/
  | assemble
  /-- A consumer is given a reference image, a length and a stream (30_encoding.md R80). Log
  entries 1 and 25. -/
  | load (ref : List Byte) (n : Nat) (stream : List Byte)
deriving DecidableEq, Repr

/-- The result of the read-out walk (R166, R167). -/
inductive AsmResult where
  /-- No walk has been performed. -/
  | idle
  /-- The walk reached `N`; the diff stream. -/
  | stream (bytes : List Byte)
  /-- `TRANS[o] <= o`: "non-forward progress". -/
  | nonForward
  /-- `TRANS[o] > N`: "out-of-bounds". -/
  | outOfBounds
deriving DecidableEq, Repr

/-- The host's side of the interface: the model's own fields. Log entries 2, 13 and 20. -/
structure HostSide where
  /-- The events still to happen, first one first. -/
  inbox : List Event
  /-- The value the last HostRead returned, zero-extended. -/
  rdata : Word
  /-- The result of the last read-out walk. -/
  asm : AsmResult
deriving DecidableEq, Repr

/-- The whole state: the block, the consumer, the host, and the counter of free values. -/
structure State where
  block : Block
  cons : Consumer
  host : HostSide
  /-- The model's own counter: `Config.unspecified` applied to it is a free value. Log entry 5. -/
  fresh : Nat
deriving DecidableEq, Repr

/-- The block's two faults (60_exceptions.md R170, R171): each is identified by its STATUS bit and
transfers no control (R175). -/
inductive FaultCause where
  /-- `CfgRange`: START with NLEN above NMAX; STATUS bit 2. -/
  | cfgRange
  /-- `BusyWrite`: a HostWrite in RUN; STATUS bit 3. -/
  | busyWrite
deriving DecidableEq, Repr

/-- Faults that stop the machine: there are none. The block's two faults only set sticky flags
and the machine goes on (60_exceptions.md R170, R171, R175), and nothing else faults (R172). So
the type has no constructor. -/
inductive Fault where
deriving DecidableEq, Repr

/-- Refusals. Every instruction has its meaning, so no arm raises the one there is. -/
inductive Refusal where
  /-- Raised by an arm of `exec` whose instruction has no meaning yet. Safe: the model stops. -/
  | notModelled (mnemonic : String)
deriving DecidableEq, Repr

/-- The working registers at reset: the spec leaves them unspecified (10_state.md R33); the model
names zero. Log entry 6. -/
def Work.zero : Work where
  i := 0
  j := 0
  m := 0
  lim := 0
  k := 0
  d := 0
  s := 0
  bestM := 0
  bestJ := 0
  c := 0
  t := 0
  tb := List.replicate Config.TOKCAP 0
  tl := 0

/-- The machine right after reset (10_state.md R33): the block idle, CUR, NLEN and the flags 0, no
entry of any memory written. -/
def State.reset : State where
  block := {
    phase := .idle
    cur := 0
    nlen := 0
    errCfg := false
    errBusyWr := false
    ref := []
    tgt := []
    cost := []
    trans := []
    toklen := []
    tok := []
    work := Work.zero }
  cons := { ref := [], n := 0, stream := [], out := [], o := 0, verdict := .idle }
  host := { inbox := [], rdata := 0, asm := .idle }
  fresh := 0

end Sys2Proof.Machine
end

