-- ==== Sys2Proof/Machine/Ops.lean ====
section
/-! DEFINITION. The named operations over memories, registers and the consumer, and the raising of
a fault. -/

namespace Sys2Proof.Machine

open Sys2Proof

/-! ## Sparse memories -/

/-- Reading one entry: none where nothing was written since reset. -/
def Memory.read {w : Nat} : Memory w → Nat → Option (BitVec w)
  | [], _ => none
  | (k, v) :: rest, a => if k = a then some v else Memory.read rest a

/-- Writing one entry (20_memory.md R46: a write changes only the entry written). -/
def Memory.write {w : Nat} : Memory w → Nat → BitVec w → Memory w
  | [], a, v => [(a, v)]
  | (k, x) :: rest, a, v =>
    if a < k then (a, v) :: (k, x) :: rest
    else if a = k then (a, v) :: rest
    else (k, x) :: Memory.write rest a v

/-- Writing consecutive entries from index `a` upward. -/
def Memory.writeAll {w : Nat} : Memory w → Nat → List (BitVec w) → Memory w
  | m, _, [] => m
  | m, a, v :: vs => Memory.writeAll (Memory.write m a v) (a + 1) vs

/-- Every listed index is at least `lo`, and they rise strictly. -/
def Memory.risingFrom {w : Nat} : Nat → Memory w → Bool
  | _, [] => true
  | lo, (k, _) :: rest => decide (lo ≤ k) && Memory.risingFrom (k + 1) rest

/-- The canonical form: listed indices rise strictly. An unlisted index has no value, so no entry
can equal what an unlisted index reads as. -/
def Memory.wf {w : Nat} (m : Memory w) : Bool := Memory.risingFrom 0 m

/-- Every listed index is below `bound`. -/
def Memory.below {w : Nat} (bound : Nat) (m : Memory w) : Bool :=
  m.all (fun c => decide (c.1 < bound))

/-- The key of byte `b` of TOK entry `i` (10_state.md R30). -/
def tokKey (i b : Nat) : Nat := Config.TOKCAP * i + b

/-! ## Space numbers (10_state.md R26) and the free values -/

/-- Space 0, the control registers. -/
def spaceCsr : Nat := 0
/-- Space 1, REF. -/
def spaceRef : Nat := 1
/-- Space 2, TGT. -/
def spaceTgt : Nat := 2
/-- Space 3, COST. -/
def spaceCost : Nat := 3
/-- Space 4, TRANS. -/
def spaceTrans : Nat := 4
/-- Space 5, TOKLEN. -/
def spaceToklen : Nat := 5
/-- Space 6, TOK. -/
def spaceTok : Nat := 6

/-- Free-value tag of the consumer's own reference buffer: the model's. -/
def tagConsRef : Nat := 7
/-- Free-value tag of the working registers: the model's. -/
def tagWork : Nat := 8

/-- The free value of an unspecified entry (93_implementation_defined.md U6 to U9, U13). DESIGN CHOICE,
log entries 4 and 27, unsafe: it is one value per entry within one step, and depends on nothing the
memories hold or held, where the spec allows any value (R186). -/
def State.free (s : State) (w space index : Nat) : BitVec w :=
  Config.unspecified w s.fresh space index

/-- A step that may have used free values leaves the counter advanced, so that a later read may
give another value (U6). -/
def State.refresh (s : State) : State := { s with fresh := s.fresh + 1 }

/-! ## Entry reads -/

/-- `N`: the value of NLEN, which cannot change during a run (10_state.md R22). -/
def State.n (s : State) : Nat := s.block.nlen.toNat

/-- `REF[a]`: the entry written last, or an unspecified byte (R33, U6). -/
def State.refByte (s : State) (a : Nat) : Byte :=
  (Memory.read s.block.ref a).getD (s.free 8 spaceRef a)

/-- `TGT[a]`. -/
def State.tgtByte (s : State) (a : Nat) : Byte :=
  (Memory.read s.block.tgt a).getD (s.free 8 spaceTgt a)

/-- `COST[a]`. -/
def State.costEntry (s : State) (a : Nat) : Word :=
  (Memory.read s.block.cost a).getD (s.free 32 spaceCost a)

/-- `TRANS[a]`. -/
def State.transEntry (s : State) (a : Nat) : Offset :=
  (Memory.read s.block.trans a).getD (s.free 18 spaceTrans a)

/-- `TOKLEN[a]`. -/
def State.toklenEntry (s : State) (a : Nat) : Len :=
  (Memory.read s.block.toklen a).getD (s.free 7 spaceToklen a)

/-- `TOK[a][b]`. -/
def State.tokByte (s : State) (a b : Nat) : Byte :=
  (Memory.read s.block.tok (tokKey a b)).getD (s.free 8 spaceTok (tokKey a b))

/-- A byte of the consumer's reference buffer (30_encoding.md R80). -/
def State.consRefByte (s : State) (a : Nat) : Byte :=
  (Memory.read s.cons.ref a).getD (s.free 8 tagConsRef a)

/-! ## Working registers -/

/-- Loading `(TB, TL)` with a rendered token (42_token_encoder.md): its bytes stand first, the
bytes of TB after them are not written. -/
def Work.putToken (w : Work) (t : List Byte) : Work :=
  { w with tb := t ++ w.tb.drop t.length, tl := BitVec.ofNat 7 t.length }

/-- The working registers when their contents are unspecified (10_state.md R14, U14): every
register a free value. -/
def State.unspecifiedWork (s : State) : Work where
  i := s.free 18 tagWork 0
  j := s.free 18 tagWork 1
  m := s.free 7 tagWork 2
  lim := s.free 7 tagWork 3
  k := s.free 7 tagWork 4
  d := s.free 7 tagWork 5
  s := s.free 32 tagWork 6
  bestM := s.free 7 tagWork 7
  bestJ := s.free 17 tagWork 8
  c := s.free 32 tagWork 9
  t := s.free 18 tagWork 10
  tb := (List.range Config.TOKCAP).map (fun b => s.free 8 tagWork (12 + b))
  tl := s.free 7 tagWork 11

/-! ## Taking a fault -/

/-- `raise X()`: sets X's sticky flag and does nothing else (60_exceptions.md R175). There is no
return operation (R176); a flag is cleared by Reset alone. -/
def State.raise (s : State) : FaultCause → State
  | .cfgRange => { s with block := { s.block with errCfg := true } }
  | .busyWrite => { s with block := { s.block with errBusyWr := true } }

/-! ## The consumer -/

/-- The consumer writes `bytes` to OUT at `o` upward and advances `o` past them (R80). -/
def State.emit (s : State) (bytes : List Byte) : State :=
  { s with cons := { s.cons with
      out := Memory.writeAll s.cons.out s.cons.o bytes
      o := s.cons.o + bytes.length } }

/-- The consumer stops with a verdict. OUT and `o` stay as they are. -/
def State.setVerdict (s : State) (v : Verdict) : State :=
  { s with cons := { s.cons with verdict := v } }

/-- The consumer rejects its stream (R85). -/
def State.reject (s : State) (why : Reject) : State := s.setVerdict (.failed why)

/-- A consumer begins on a stream: a reference image, a length `n`, an empty OUT, `o = 0` (R80).
DESIGN CHOICE, log entry 25, unsafe: any `n` is taken, above NMAX too, and an image of another length
than `n`; the spec gives one shared legal N (00_scope.md R4, R5) and is silent on any other. -/
def State.beginDecode (s : State) (ref : Memory 8) (n : Nat) (stream : List Byte) : State :=
  { s with cons := { ref := ref, n := n, stream := stream, out := [], o := 0,
                     verdict := .decoding } }

/-- Placing a stream in front of the consumer, whatever else is pending: no event is waiting, the
consumer is decoding, and its `N` is the largest the format addresses. Log entry 3. -/
def State.placeStream (s : State) (bytes : List Byte) : State :=
  { s with
    cons := { s.cons with stream := bytes, n := Config.NMAX, verdict := .decoding }
    host := { s.host with inbox := [] } }

end Sys2Proof.Machine
end

