-- ==== Sys2Proof/Machine/Operands.lean ====
section
/-! DEFINITION. The operand forms of the tokens at the consumer: bitmap positions, the copied
bytes, the patched bytes, the windows (30_encoding.md R69, R83, R84; 20_memory.md R42). -/

namespace Sys2Proof.Machine

open Sys2Proof

/-- Bit of position `p`: bit `p[2:0]` of bitmap byte `p >> 3` (R42). -/
def bitAt (bm : List Byte) (p : Nat) : Bool := (bm.getD (p >>> 3) 0).getLsbD (p % 8)

/-- Some unused bit of the bitmap, at a position `length` or above, is 1 (R42, U4). -/
def padBits (len : Nat) (bm : List Byte) : Bool :=
  (List.range (8 * bm.length - len)).any (fun q => bitAt bm (len + q))

/-- The bytes `REF[addr .. addr+len-1]` of the consumer's reference buffer (R83). -/
def State.copied (s : State) (len : Nat) (addr : RefAddr) : List Byte :=
  (List.range len).map (fun p => s.consRefByte (addr.toNat + p))

/-- For each position from `p` on whose bit is 1, the next patch byte is xored in, ascending
(R84). None when the patch bytes are too few or too many (R69). -/
def applyPatches (bm : List Byte) : Nat → List Byte → List Byte → Option (List Byte)
  | _, [], [] => some []
  | _, [], _ :: _ => none
  | p, c :: cs, ps =>
    if bitAt bm p then
      match ps with
      | [] => none
      | x :: xs => (applyPatches bm (p + 1) cs xs).map (fun r => (c ^^^ x) :: r)
    else (applyPatches bm (p + 1) cs ps).map (fun r => c :: r)

/-- Why a match of `len` bytes at `addr` may not be copied: it would write past `N` (R85), or it
reads past the reference buffer (U5). The write past `N` is tested first. Log entry 9. -/
def State.windowFault (s : State) (len : Nat) (addr : RefAddr) : Option Reject :=
  if s.cons.n < s.cons.o + len then some .overrun
  else if s.cons.n < addr.toNat + len then some .refWindow
  else none

end Sys2Proof.Machine
end

