-- ==== Sys2Proof/Machine/Tokens.lean ====
section
/-! DEFINITION. The meaning of each token at a consumer (30_encoding.md R80 to R85). The token's
bytes have left the stream already (System.lean). -/

namespace Sys2Proof.Machine

open Sys2Proof

/-- LIT1 (R81): `OUT[o] <- REF[o] xor X; o <- o + 1`. At `o = N` it would write past `N` and the
consumer fails (R85). -/
def execLit1 (x : Byte) (s : State) : Host.Outcome State Fault Refusal :=
  if s.cons.o < s.cons.n then .next (s.emit [s.consRefByte s.cons.o ^^^ x]).refresh
  else .next (s.reject .overrun).refresh

/-- LIT2 (R82): its 3 bytes are consumed; its effect on OUT and `o` is not in the source, and a model
of a consumer refuses it, as a failure of the stream (92_eei_decisions.md D23). Log entry 8. -/
def execLit2 (_x0 _x1 : Byte) (s : State) : Host.Outcome State Fault Refusal :=
  .next (s.reject .lit2).refresh

/-- EXACT (R83): copy `len` bytes from `REF[addr..]` to `OUT[o..]`, then `o <- o + len`. A window
past `N` is rejected (R85, U5). -/
def execExactMatch (len : Nat) (addr : RefAddr) (s : State) : Host.Outcome State Fault Refusal :=
  match s.windowFault len addr with
  | some why => .next (s.reject why).refresh
  | none => .next (s.emit (s.copied len addr)).refresh

/-- APPROX (R84): the copy of R83, then for each bitmap bit in ascending order that is 1 the next
patch byte xored in, then `o <- o + len`. Rejected for a window past `N` (R85, U5) and for a 1 in
an unused bitmap bit (U4). -/
def execApproxMatch (len : Nat) (addr : RefAddr) (bitmap patches : List Byte) (s : State) :
    Host.Outcome State Fault Refusal :=
  match s.windowFault len addr with
  | some why => .next (s.reject why).refresh
  | none =>
    if padBits len bitmap then .next (s.reject .padBit).refresh
    else
      match applyPatches bitmap 0 (s.copied len addr) patches with
      | none => .next (s.reject .patchCount).refresh
      | some bytes => .next (s.emit bytes).refresh

end Sys2Proof.Machine
end

