-- ==== Sys2Proof/Machine/Dispatch.lean ====
section
/-! DEFINITION. One arm per token. -/

namespace Sys2Proof.Machine

open Sys2Proof

def exec (i : Instr) (s : State) : Host.Outcome State Fault Refusal :=
  match i with
  | .lit1 x => Sys2Proof.Machine.execLit1 x s
  | .lit2 x0 x1 => Sys2Proof.Machine.execLit2 x0 x1 s
  | .exactMatch len addr => Sys2Proof.Machine.execExactMatch len addr s
  | .approxMatch len addr bitmap patches => Sys2Proof.Machine.execApproxMatch len addr bitmap patches s

end Sys2Proof.Machine
end

