-- ==== Sys2Proof/Machine/TokenEncoder.lean ====
section
/-! DEFINITION. The token encoder TE (42_token_encoder.md R140 to R144). Each operation returns
the bytes of the token; `TL` is their count. It is a pure reader of REF and TGT. There is no
TE.LIT2 (R141). -/

namespace Sys2Proof.Machine

open Sys2Proof

/-- `TGT[I + p] != REF[J + p]`. -/
def State.differs (s : State) (i j p : Nat) : Bool := s.tgtByte (i + p) != s.refByte (j + p)

/-- TE.LIT1 (R140): the xor with the reference byte at the same offset. -/
def State.teLit1 (s : State) (i : Nat) : List Byte := [0x00, s.refByte i ^^^ s.tgtByte i]

/-- TE.EXACT (R142). -/
def teExact (len : Nat) (a : RefAddr) : List Byte :=
  [exactTag len (addrHigh a), addrLow a, addrMid a]

/-- Bitmap byte `b` of TE.APPROX (R143): bit `q` is 1 exactly where position `8 * b + q` lies in
the window and differs. -/
def State.bitmapByte (s : State) (i j k b : Nat) : Byte :=
  BitVec.ofNat 8 ((List.range 8).map (fun q =>
    if 8 * b + q < k && s.differs i j (8 * b + q) then 1 <<< q else 0)).sum

/-- The bitmap of TE.APPROX: `ceil8(K)` bytes (R143). -/
def State.teBitmap (s : State) (i j k : Nat) : List Byte :=
  (List.range (ceil8 k)).map (s.bitmapByte i j k)

/-- The patch bytes of TE.APPROX, lowest position first (R143). -/
def State.tePatches (s : State) (i j k : Nat) : List Byte :=
  ((List.range k).filter (s.differs i j)).map (fun p => s.refByte (j + p) ^^^ s.tgtByte (i + p))

/-- TE.APPROX (R143): the bitmap starts at token byte 3. -/
def State.teApprox (s : State) (i j k : Nat) : List Byte :=
  let a : RefAddr := BitVec.ofNat 17 j
  [approxTag k (addrHigh a), addrLow a, addrMid a] ++ s.teBitmap i j k ++ s.tePatches i j k

end Sys2Proof.Machine
end

