-- ==== Sys2Proof/Machine/Scanner.lean ====
section
/-! DEFINITION. The match scanner MS (40_match_scanner.md R90 to R97). The scan of one offset,
MS.SCAN, hands each candidate to CB and stands in CostBuilder.lean. -/

namespace Sys2Proof.Machine

open Sys2Proof

/-- MS.LIM (R91): `min(LMAX, N - i, N - j)`. -/
def State.msLim (s : State) (i j : Nat) : Nat :=
  min Config.LMAX (min (s.n - i) (s.n - j))

/-- The loop of MS.RUNLEN (R90), from run length `m` with `fuel` positions left before the bound. -/
def State.runFrom (s : State) (i j : Nat) : Nat → Nat → Nat
  | 0, m => m
  | fuel + 1, m => if s.differs i j m then m else State.runFrom s i j fuel (m + 1)

/-- MS.RUNLEN (R90): the longest exact run at `(i, j)` within the bound. -/
def State.msRunlen (s : State) (i j : Nat) : Nat := s.runFrom i j (s.msLim i j) 0

/-- MS.DIFFS (R94): the mismatches of the first `k` positions at `(i, j)`. -/
def State.msDiffs (s : State) (i j k : Nat) : Nat := (List.range k).countP (s.differs i j)

/-- MS.ASIZE (R95): `HDR_SIZE + ceil8(k) + D`. -/
def msAsize (k d : Nat) : Nat := Config.HDR_SIZE + ceil8 k + d

/-- MS.BEST (R92) on the working registers: a strictly longer run at `J` replaces the best pair. -/
def Work.msBest (w : Work) : Work :=
  if w.bestM < w.m then { w with bestM := w.m, bestJ := w.j.setWidth 17 } else w

/-- MS.RUNLEN on the working registers: sets LIM and M for `(I, J)` (R90, R91, R98). -/
def State.setRun (s : State) (w : Work) : Work :=
  { w with
    lim := BitVec.ofNat 7 (s.msLim w.i.toNat w.j.toNat)
    m := BitVec.ofNat 7 (s.msRunlen w.i.toNat w.j.toNat) }

end Sys2Proof.Machine
end

