-- ==== Sys2Proof/Machine/CostBuilder.lean ====
section
/-! DEFINITION. The cost-table builder CB (41_cost_builder.md R110 to R127), with MS.SCAN
(40_match_scanner.md R98), which calls it. -/

namespace Sys2Proof.Machine

open Sys2Proof

/-- CB.INIT (R110): `COST[N] <- COST_END`, `CUR <- N`. -/
def State.cbInit (s : State) : State :=
  { s with block := { s.block with
      cost := Memory.write s.block.cost s.n (BitVec.ofNat 32 Config.COST_END)
      cur := s.block.nlen } }

/-- CB.SEED (R115): the literal at offset `I`. -/
def State.cbSeed (s : State) (w : Work) : Work :=
  { w.putToken (s.teLit1 w.i.toNat) with
    c := BitVec.ofNat 32 Config.LIT_SIZE + s.costEntry (w.i.toNat + 1)
    t := w.i + 1 }

/-- Adoption (R118, R121, R124): a candidate of total cost `total`, length `len` and token `tok`
replaces the running minimum only if strictly cheaper. -/
def Work.adopt (w : Work) (total : Word) (len : Nat) (tok : List Byte) : Work :=
  let w := { w with s := total }
  if total < w.c then
    { w.putToken tok with c := total, t := w.i + BitVec.ofNat 18 len }
  else w

/-- CB.TRY_APPROX (R117, R118) for the candidate `(J, K, D)`. -/
def State.cbTryApprox (s : State) (w : Work) : Work :=
  w.adopt (BitVec.ofNat 32 (msAsize w.k.toNat w.d.toNat) + s.costEntry (w.i.toNat + w.k.toNat))
    w.k.toNat (s.teApprox w.i.toNat w.j.toNat w.k.toNat)

/-- One `K` of MS.SCAN (R98): sets K and D, then CB.TRY_APPROX. -/
def State.scanLength (s : State) (w : Work) (k : Nat) : Work :=
  let w := { w with k := BitVec.ofNat 7 k }
  s.cbTryApprox { w with d := BitVec.ofNat 7 (s.msDiffs w.i.toNat w.j.toNat w.k.toNat) }

/-- One `J` of MS.SCAN (R98): the run, the best pair, then the approximate candidates in
increasing `K` from M to LIM. -/
def State.scanAddress (s : State) (w : Work) (j : Nat) : Work :=
  let w := (s.setRun { w with j := BitVec.ofNat 18 j }).msBest
  if w.m.toNat = 0 then w
  else (List.range' w.m.toNat (w.lim.toNat + 1 - w.m.toNat)).foldl s.scanLength w

/-- MS.SCAN (R98): `J = 0 .. N-1` ascending. -/
def State.msScan (s : State) (w : Work) : Work :=
  (List.range s.n).foldl s.scanAddress { w with bestM := 0 }

/-- One exact candidate of CB.TRY_EXACT (R120, R121): length `len` at BESTJ. -/
def State.tryExactLength (s : State) (w : Work) (len : Nat) : Work :=
  w.adopt (BitVec.ofNat 32 Config.HDR_SIZE + s.costEntry (w.i.toNat + len)) len
    (teExact len w.bestJ)

/-- CB.TRY_EXACT (R119, R121, R122): `len = 1 .. min(BESTM, EXACT_LMAX)` ascending. -/
def State.cbTryExact (s : State) (w : Work) : Work :=
  (List.range' 1 (min w.bestM.toNat Config.EXACT_LMAX)).foldl s.tryExactLength w

/-- CB.COMMIT (R123): the five writes of one commit. The working registers are unspecified from
then on (10_state.md R14). -/
def State.cbCommit (s : State) (w : Work) : State :=
  State.refresh { s with block := { s.block with
      cost := Memory.write s.block.cost w.i.toNat w.c
      trans := Memory.write s.block.trans w.i.toNat w.t
      toklen := Memory.write s.block.toklen w.i.toNat w.tl
      tok := Memory.writeAll s.block.tok (tokKey w.i.toNat 0) (w.tb.take w.tl.toNat)
      cur := w.i
      work := s.unspecifiedWork } }

/-- The working registers at the end of offset step `I = CUR - 1`, before the commit (R127). -/
def State.offsetWork (s : State) : Work :=
  let w := { s.block.work with i := s.block.cur - 1 }
  s.cbTryExact (s.msScan (s.cbSeed w))

/-- CB.OFFSET_STEP (R127); it is taken only with `PHASE = RUN` and `CUR > 0`. DESIGN CHOICE, log entry
26, unsafe: over input bytes never written it runs the same rules on their free values, where the
spec leaves every dependent table entry unspecified (70_reset_and_hazards.md R189 H4, U6). -/
def State.offsetStep (s : State) : State := s.cbCommit s.offsetWork

end Sys2Proof.Machine
end

