-- ==== Sys2Proof/Machine/Flags.lean ====
section
/-! DEFINITION. The status flags and the words of the control registers (10_state.md R18 to R24).
The block has no arithmetic condition codes (R19). -/

namespace Sys2Proof.Machine

open Sys2Proof

/-- The 2-bit code of PHASE (R15). -/
def Phase.code : Phase → BitVec 2
  | .idle => 0
  | .run => 1
  | .done => 2

/-- STATUS: bits 1:0 PHASE, bit 2 ERR_CFG, bit 3 ERR_BUSYWR, bits 31:4 zero (R23). -/
def Block.statusWord (b : Block) : Word :=
  (0 : BitVec 28) ++ (BitVec.ofBool b.errBusyWr ++ (BitVec.ofBool b.errCfg ++ b.phase.code))

/-- Bit 0 of a write to CTRL: START (R21). -/
def startBit (v : Word) : Bool := v.getLsbD 0

end Sys2Proof.Machine
end

