-- ==== Sys2Proof/Machine/Control.lean ====
section
/-! DEFINITION. The phase machine and Reset (43_control_and_host.md R150 to R156;
70_reset_and_hazards.md R185). -/

namespace Sys2Proof.Machine

open Sys2Proof

/-- PHASE is set. -/
def State.setPhase (s : State) (p : Phase) : State :=
  { s with block := { s.block with phase := p } }

/-- START (R151), in IDLE or DONE. -/
def State.start (s : State) : State :=
  if Config.NMAX < s.n then s.raise .cfgRange
  else s.cbInit.setPhase .run

/-- The block's enabled step (R152, R153). In IDLE and DONE it has none and keeps all state
(60_exceptions.md R183). -/
def State.blockStep (s : State) : State :=
  match s.block.phase with
  | .run => if s.block.cur.toNat = 0 then s.setPhase .done else s.offsetStep
  | .idle => s
  | .done => s

/-- Reset (R185): control state cleared, every memory entry and working register unspecified. It
reaches the block only; the consumer and the host are not the block (log entry 1). DESIGN CHOICE, log
entry 27, unsafe: what is read after it does not depend on what the entries held, while R186 also
admits a hardware that keeps them. -/
def State.resetBlock (s : State) : State :=
  State.refresh { s with block := {
    phase := .idle
    cur := 0
    nlen := 0
    errCfg := false
    errBusyWr := false
    ref := []
    tgt := []
    cost := []
    trans := []
    toklen := []
    tok := []
    work := s.unspecifiedWork } }

end Sys2Proof.Machine
end

