-- ==== Sys2Proof/Machine/HostPort.lean ====
section
/-! DEFINITION. The host operations (43_control_and_host.md R157 to R163) and the read-out walk
(R166, R167). -/

namespace Sys2Proof.Machine

open Sys2Proof

/-! ## Writes -/

/-- An accepted write of REF (R157): PHASE becomes IDLE. -/
def State.writeRef (s : State) (a : Nat) (b : Byte) : State :=
  { s with block := { s.block with ref := Memory.write s.block.ref a b, phase := .idle } }

/-- An accepted write of TGT (R157). -/
def State.writeTgt (s : State) (a : Nat) (b : Byte) : State :=
  { s with block := { s.block with tgt := Memory.write s.block.tgt a b, phase := .idle } }

/-- An accepted write of NLEN (R157): bits 17:0 (R22). -/
def State.writeNlen (s : State) (v : Word) : State :=
  { s with block := { s.block with nlen := v.setWidth 18, phase := .idle } }

/-- A write of a control register outside RUN (R20, R151, R156, R157, R159). -/
def State.writeCsr (s : State) (n : Nat) (v : Word) : State :=
  if n = 0 then (if startBit v then s.start else s)
  else if n = 2 then s.writeNlen v
  else s

/-- HostWrite: in RUN dropped with `raise BusyWrite()` (R158); else performed for REF, TGT below
NMAX and the control registers (R151, R156, R157), and ignored for every other target (R159). -/
def State.hostWrite (s : State) (t : Target) (v : Word) : State :=
  if s.block.phase = .run then s.raise .busyWrite
  else if t.space = spaceCsr then s.writeCsr t.index v
  else if t.space = spaceRef then
    (if t.index < Config.NMAX then s.writeRef t.index (v.setWidth 8) else s)
  else if t.space = spaceTgt then
    (if t.index < Config.NMAX then s.writeTgt t.index (v.setWidth 8) else s)
  else s

/-! ## Reads -/

/-- HostRead of a control register (R160): CTRL and reserved numbers read 0. -/
def Block.csrWord (b : Block) (n : Nat) : Word :=
  if n = 1 then b.statusWord
  else if n = 2 then b.nlen.setWidth 32
  else if n = 3 then b.cur.setWidth 32
  else 0

/-- The value a HostRead returns, zero-extended (R160 to R162). Where no rule gives one it is a
free value of the entry's width (93_implementation_defined.md U7, U8, U9, U13). DESIGN CHOICE, log
entry 4, unsafe: within one step, such as one ASSEMBLE event, unspecified reads of TOK share a value
where `tokKey` coincides, as at (0, 80) and (1, 5). -/
def State.hostReadValue (s : State) (t : Target) : Word :=
  if t.space = spaceCsr then s.block.csrWord t.index
  else if t.space = spaceRef then
    (if s.block.phase ≠ .run ∧ t.index < Config.NMAX then (s.refByte t.index).setWidth 32
     else (s.free 8 t.space t.index).setWidth 32)
  else if t.space = spaceTgt then
    (if s.block.phase ≠ .run ∧ t.index < Config.NMAX then (s.tgtByte t.index).setWidth 32
     else (s.free 8 t.space t.index).setWidth 32)
  else if t.space = spaceCost then
    (if s.block.phase = .done ∧ t.index ≤ s.n then s.costEntry t.index
     else s.free 32 t.space t.index)
  else if t.space = spaceTrans then
    (if s.block.phase = .done ∧ t.index < s.n then (s.transEntry t.index).setWidth 32
     else (s.free 18 t.space t.index).setWidth 32)
  else if t.space = spaceToklen then
    (if s.block.phase = .done ∧ t.index < s.n then (s.toklenEntry t.index).setWidth 32
     else (s.free 7 t.space t.index).setWidth 32)
  else if t.space = spaceTok then
    (if s.block.phase = .done ∧ t.index < s.n ∧ t.byte < (s.toklenEntry t.index).toNat then
       (s.tokByte t.index t.byte).setWidth 32
     else (s.free 8 t.space (tokKey t.index t.byte)).setWidth 32)
  else s.free 32 t.space t.index

/-- HostRead: returns a value and changes nothing of the block (R162). -/
def State.hostRead (s : State) (t : Target) : State :=
  State.refresh { s with host := { s.host with rdata := s.hostReadValue t } }

/-! ## The read-out walk -/

/-- The bytes the walk reads at offset `o`: `HostRead(TOK, (o, b))` for `b < HostRead(TOKLEN, o)`. -/
def State.readToken (s : State) (o : Nat) : List Byte :=
  (List.range (s.hostReadValue { space := spaceToklen, index := o }).toNat).map
    (fun b => (s.hostReadValue { space := spaceTok, index := o, byte := b }).setWidth 8)

/-- The loop of ASSEMBLE (R166) from offset `o` with the stream so far. Each round advances `o`
and stays within `N`, so `N` rounds are enough. -/
def State.walk (s : State) : Nat → Nat → List Byte → AsmResult
  | 0, _, acc => .stream acc
  | fuel + 1, o, acc =>
    if o = s.n then .stream acc
    else
      let acc := acc ++ s.readToken o
      let t := (s.hostReadValue { space := spaceTrans, index := o }).toNat
      if t ≤ o then .nonForward
      else if s.n < t then .outOfBounds
      else State.walk s fuel t acc

/-- The result of ASSEMBLE on the tables as a host reads them (R166). -/
def State.walkResult (s : State) : AsmResult := s.walk s.n 0 []

/-- ASSEMBLE, performed by the host in one event. Log entry 20. -/
def State.assemble (s : State) : State :=
  State.refresh { s with host := { s.host with asm := s.walkResult } }

end Sys2Proof.Machine
end

