-- ==== Sys2Proof/Machine/System.lean ====
section
/-! DEFINITION. How host, block and consumer take turns: the consumer's fetch, the events of the
host, and what happens when no event is pending. Log entries 2 and 17. -/

namespace Sys2Proof.Machine

open Sys2Proof

/-- The consumer's stream without the token just read (30_encoding.md R80). -/
def State.setStream (s : State) (rest : List Byte) : State :=
  { s with cons := { s.cons with stream := rest } }

/-- The stream is exhausted: success if `o = N`, else a length mismatch (R76, R85). -/
def State.endOfStream (s : State) : State :=
  if s.cons.o = s.cons.n then s.setVerdict .success else s.reject .underrun

/-- One step of a decoding consumer: "one token per step" (R80). DESIGN CHOICE, log entries 9 and 24,
unsafe: R85 does not say which failure is reported where several hold; a cut token is reported as
`truncated` before any other test, also where it would pass `N` or the reference buffer or is LIT2. -/
def consumerStep (s : State) : Host.Outcome State Fault Refusal :=
  match decode s.cons.stream with
  | .ok (i, rest) => exec i (s.setStream rest)
  | .error .endOfStream => .next s.endOfStream
  | .error .truncated => .next (s.reject .truncated)

/-- The consumer's step if it is decoding; else nothing. -/
def consumerTurn (s : State) : Host.Outcome State Fault Refusal :=
  if s.cons.verdict = .decoding then consumerStep s else .next s

/-- One event of the host. -/
def handle (e : Event) (s : State) : Host.Outcome State Fault Refusal :=
  match e with
  | .write t v => .next (s.hostWrite t v)
  | .read t => .next (s.hostRead t)
  | .reset => .next s.resetBlock
  | .blockStep => .next s.blockStep
  | .consumerStep => consumerTurn s
  | .assemble => .next s.assemble
  | .load ref n stream => .next (s.beginDecode (Memory.writeAll [] 0 ref) n stream)

/-- The inbox without its first event. -/
def State.setInbox (s : State) (rest : List Event) : State :=
  { s with host := { s.host with inbox := rest } }

/-- The first pending event; with none pending, the consumer while it is decoding, else the
block's enabled step, and in IDLE and DONE the machine waits with all state kept
(60_exceptions.md R183). -/
def systemStep (s : State) : Host.Outcome State Fault Refusal :=
  match s.host.inbox with
  | e :: rest => handle e (s.setInbox rest)
  | [] => if s.cons.verdict = .decoding then consumerStep s else .next s.blockStep

end Sys2Proof.Machine
end

