-- ==== Sys2Proof/Machine/Step.lean ====
section
/-! DEFINITION. One step of the machine, and the placing of an instruction where the next step
fetches it. -/

namespace Sys2Proof.Machine

open Sys2Proof

/-- One step. -/
def step (s : State) : Host.Outcome State Fault Refusal := systemStep s

/-- The token of a table word placed at the front of the consumer's stream, so that the next step
fetches and runs exactly it. Log entry 3. -/
def State.withFetchWord (s : State) (nbits w : Nat) : State :=
  s.placeStream (bytesOfTableWord nbits w)

end Sys2Proof.Machine
end

