-- ==== Sys2Proof/WellFormed.lean ====
section
/-! DEFINITION. Which tokens the format can encode (30_encoding.md R61 to R69). The addresses and
payload bytes have their widths in their types. -/

namespace Sys2Proof

/-- The match length of an EXACT token is 1 to 63 (R63, R67). -/
def WellFormed.exactLength (len : Nat) : Bool := 1 ≤ len && len ≤ 63

/-- The match length of an APPROX token is 1 to 64 (R64, R66). -/
def WellFormed.approxLength (len : Nat) : Bool := 1 ≤ len && len ≤ 64

/-- The bitmap has `ceil8(length)` bytes (R69). -/
def WellFormed.bitmapSize (len : Nat) (bm : List Byte) : Bool := bm.length == ceil8 len

/-- There is one patch byte per 1 bit of the bitmap, never more, never fewer (R69). -/
def WellFormed.patchCount (bm ps : List Byte) : Bool := ps.length == popcounts bm

/-- A token the format can encode. Tokens the block never emits (R72) are well formed. -/
def Instr.wellFormed : Instr → Bool
  | .lit1 _ => true
  | .lit2 _ _ => true
  | .exactMatch len _ => WellFormed.exactLength len
  | .approxMatch len _ bm ps =>
    WellFormed.approxLength len && WellFormed.bitmapSize len bm && WellFormed.patchCount bm ps

end Sys2Proof
end

