-- ==== Sys2Proof/Safety.lean ====
section
/-! DEFINITION. The terms claims are stated in: well-formed states, what a finished table entry
must satisfy (41_cost_builder.md R128 to R136), the candidates of an offset (R113), runs. -/

namespace Sys2Proof.Machine

open Sys2Proof

/-! ## Well-formed states -/

/-- The memories of the block are canonical and stay inside their spaces (10_state.md R26). -/
abbrev Block.MemoriesWf (b : Block) : Prop :=
  Memory.wf b.ref = true ∧ Memory.below Config.NMAX b.ref = true ∧
  Memory.wf b.tgt = true ∧ Memory.below Config.NMAX b.tgt = true ∧
  Memory.wf b.cost = true ∧ Memory.below (Config.NMAX + 1) b.cost = true ∧
  Memory.wf b.trans = true ∧ Memory.below Config.NMAX b.trans = true ∧
  Memory.wf b.toklen = true ∧ Memory.below Config.NMAX b.toklen = true ∧
  Memory.wf b.tok = true ∧ Memory.below (Config.TOKCAP * Config.NMAX) b.tok = true

/-- The control state is one a run can have: a run's length is legal (R22), the cursor stays in
`0..N` and is 0 outside RUN (R16, R33). -/
abbrev Block.ControlWf (b : Block) : Prop :=
  (b.phase = .run → b.nlen.toNat ≤ Config.NMAX ∧ b.cur.toNat ≤ b.nlen.toNat) ∧
  (b.phase = .done → b.nlen.toNat ≤ Config.NMAX) ∧
  (b.phase ≠ .run → b.cur = 0)

/-- The consumer writes inside its OUT buffer (30_encoding.md R85). -/
abbrev Consumer.Wf (c : Consumer) : Prop :=
  Memory.wf c.ref = true ∧ Memory.wf c.out = true ∧ Memory.below c.n c.out = true ∧ c.o ≤ c.n

/-- A well-formed state. -/
abbrev State.Wf (s : State) : Prop :=
  s.block.MemoriesWf ∧ s.block.ControlWf ∧ s.block.work.tb.length = Config.TOKCAP ∧ s.cons.Wf

/-! ## What the host must have written -/

/-- Every byte `REF[0..N-1]` and `TGT[0..N-1]` has been written since reset
(70_reset_and_hazards.md R187). -/
abbrev State.InputsWritten (s : State) : Prop :=
  ∀ a, a < s.n → (Memory.read s.block.ref a).isSome ∧ (Memory.read s.block.tgt a).isSome

/-! ## Table entries -/

/-- `TOK[i][0 .. TOKLEN[i]-1]`, the token of entry `i`. -/
def State.token (s : State) (i : Nat) : List Byte :=
  (List.range (s.toklenEntry i).toNat).map (s.tokByte i)

/-- Entry `i` of every table has been written. -/
abbrev State.EntryWritten (s : State) (i : Nat) : Prop :=
  (Memory.read s.block.cost i).isSome ∧ (Memory.read s.block.trans i).isSome ∧
  (Memory.read s.block.toklen i).isSome ∧
  ∀ b, b < (s.toklenEntry i).toNat → (Memory.read s.block.tok (tokKey i b)).isSome

/-- Forward progress (R128): `i < TRANS[i] <= min(i + 64, N)`. -/
abbrev State.Forward (s : State) (i : Nat) : Prop :=
  i < (s.transEntry i).toNat ∧ (s.transEntry i).toNat ≤ min (i + 64) s.n

/-- Cost equation (R129): `COST[i] = TOKLEN[i] + COST[TRANS[i]]`. -/
abbrev State.CostEquation (s : State) (i : Nat) : Prop :=
  (s.costEntry i).toNat = (s.toklenEntry i).toNat + (s.costEntry (s.transEntry i).toNat).toNat

/-- Monotonicity and bounds (R131): `COST[i] <= COST[i+1] + 2`, `2 <= COST[i] <= 2 * (N - i)`. -/
abbrev State.CostBounds (s : State) (i : Nat) : Prop :=
  (s.costEntry i).toNat ≤ (s.costEntry (i + 1)).toNat + 2 ∧
  2 ≤ (s.costEntry i).toNat ∧ (s.costEntry i).toNat ≤ 2 * (s.n - i)

/-- The instruction a token entry decodes to, if its bytes are exactly one token. -/
def State.tokenInstr (s : State) (i : Nat) : Option Instr :=
  match decode (s.token i) with
  | .ok (ins, []) => some ins
  | _ => none

/-- A token the block may emit (R130): LIT1, EXACT or APPROX, never LIT2. -/
def isEmitted : Instr → Bool
  | .lit1 _ => true
  | .lit2 _ _ => false
  | .exactMatch _ _ => true
  | .approxMatch _ _ _ _ => true

/-- R130: `TOKLEN[i] = toklen(TOK[i])`, 2 to 74 bytes, one LIT1, EXACT or APPROX token. -/
abbrev State.TokenShape (s : State) (i : Nat) : Prop :=
  (s.toklenEntry i).toNat = toklen (s.token i) ∧
  2 ≤ (s.toklenEntry i).toNat ∧ (s.toklenEntry i).toNat ≤ 74 ∧
  (s.tokenInstr i).any isEmitted = true

/-- The length and address of a match token. -/
def matchWindow : Instr → Option (Nat × RefAddr)
  | .lit1 _ => none
  | .lit2 _ _ => none
  | .exactMatch len addr => some (len, addr)
  | .approxMatch len addr _ _ => some (len, addr)

/-- Address range (R134): for a match token of length `L` and address `A`, `A + L <= N`,
`i + L <= N` and `TRANS[i] = i + L`. (`A <= 0x1FFFF` holds by the width of an address.) -/
def State.AddressRange (s : State) (i : Nat) : Prop :=
  ∀ ins len addr, s.tokenInstr i = some ins → matchWindow ins = some (len, addr) →
    addr.toNat + len ≤ s.n ∧ i + len ≤ s.n ∧ (s.transEntry i).toNat = i + len

/-- Token correctness (R136): a consumer that holds the block's REF and N and stands at `o = i`
answers a next state on entry `i`'s token, its cursor at `TRANS[i]`, with exactly
`OUT[i .. TRANS[i]-1]` written, equal to `TGT[i .. TRANS[i]-1]`. -/
def State.Rebuilds (s : State) (i : Nat) : Prop :=
  ∃ ins, s.tokenInstr i = some ins ∧
    ∀ c : State, c.cons.ref = s.block.ref → c.cons.n = s.n → c.cons.o = i →
      ∃ c', exec ins c = .next c' ∧ c'.cons.o = (s.transEntry i).toNat ∧
        c'.cons.verdict = c.cons.verdict ∧
        ∀ a, Memory.read c'.cons.out a =
          if i ≤ a ∧ a < (s.transEntry i).toNat then some (s.tgtByte a)
          else Memory.read c.cons.out a

/-- Entry `i` is final and correct. -/
structure State.EntryOk (s : State) (i : Nat) : Prop where
  written : s.EntryWritten i
  forward : s.Forward i
  costEquation : s.CostEquation i
  costBounds : s.CostBounds i
  tokenShape : s.TokenShape i
  addressRange : s.AddressRange i
  rebuilds : s.Rebuilds i

/-- What holds in RUN and DONE of the tables (10_state.md R16, R31): `COST[N] = COST_END`, and
with all inputs written every entry from CUR on is final and correct. -/
def State.TablesInv (s : State) : Prop :=
  s.block.phase ≠ .idle →
    s.n ≤ Config.NMAX ∧ s.block.cur.toNat ≤ s.n ∧
    (s.block.phase = .done → s.block.cur.toNat = 0) ∧
    Memory.read s.block.cost s.n = some (BitVec.ofNat 32 Config.COST_END) ∧
    (s.InputsWritten → ∀ i, s.block.cur.toNat ≤ i → i < s.n → s.EntryOk i)

/-! ## Runs of the block -/

/-- `k` block steps with no host operation between them. -/
def State.blockSteps : Nat → State → State
  | 0, s => s
  | k + 1, s => State.blockSteps k s.blockStep

/-- START and the whole run: `N` offset steps and the completion step (R154). -/
def State.finished (s : State) : State := State.blockSteps (s.n + 1) s.start

/-- The offsets the read-out walk visits from `o` until it reaches `N` (R135, R166). -/
def State.chain (s : State) : Nat → Nat → List Nat
  | 0, _ => []
  | fuel + 1, o => if o = s.n then [] else o :: State.chain s fuel (s.transEntry o).toNat

/-- The host has loaded inputs of a legal length and no run is in progress (R187). -/
abbrev State.Ready (s : State) : Prop :=
  s.block.phase ≠ .run ∧ s.n ≤ Config.NMAX ∧ s.InputsWritten

/-! ## The candidates of an offset (R113) -/

/-- A way of encoding the bytes at an offset: how many it covers, the total cost, the token. -/
structure Candidate where
  len : Nat
  cost : Nat
  token : List Byte
deriving DecidableEq, Repr

/-- The longest run at offset `i` over all of `[0, N)` (40_match_scanner.md R93). -/
def State.bestRun (s : State) (i : Nat) : Nat :=
  (List.range s.n).foldl (fun b j => max b (s.msRunlen i j)) 0

/-- The least `j` that attains it (R93). -/
def State.bestAddr (s : State) (i : Nat) : Nat :=
  ((List.range s.n).find? (fun j => s.msRunlen i j == s.bestRun i)).getD 0

/-- (1) the literal: length 1, size 2. -/
def State.literalCandidate (s : State) (i : Nat) : Candidate where
  len := 1
  cost := Config.LIT_SIZE + (s.costEntry (i + 1)).toNat
  token := s.teLit1 i

/-- The approximate candidate `(j, k, D)`: length `k`, size `MS.ASIZE(k, D)`. -/
def State.approxCandidate (s : State) (i j k : Nat) : Candidate where
  len := k
  cost := msAsize k (s.msDiffs i j k) + (s.costEntry (i + k)).toNat
  token := s.teApprox i j k

/-- The approximate candidates of one `j`: none if the run is empty, else `k = M .. LIM` (R96). -/
def State.approxCandidatesAt (s : State) (i j : Nat) : List Candidate :=
  if s.msRunlen i j = 0 then []
  else (List.range' (s.msRunlen i j) (s.msLim i j + 1 - s.msRunlen i j)).map (s.approxCandidate i j)

/-- (2) the approximate candidates, `j` ascending, then `k` ascending. -/
def State.approxCandidates (s : State) (i : Nat) : List Candidate :=
  (List.range s.n).flatMap (s.approxCandidatesAt i)

/-- The exact candidate `(len, BESTJ)`: size 3. -/
def State.exactCandidate (s : State) (i len : Nat) : Candidate where
  len := len
  cost := Config.HDR_SIZE + (s.costEntry (i + len)).toNat
  token := teExact len (BitVec.ofNat 17 (s.bestAddr i))

/-- (3) the exact candidates, `len = 1 .. min(BESTM, EXACT_LMAX)` ascending. -/
def State.exactCandidates (s : State) (i : Nat) : List Candidate :=
  (List.range' 1 (min (s.bestRun i) Config.EXACT_LMAX)).map (s.exactCandidate i)

/-- All candidates at offset `i`, in the order CB meets them (R113). -/
def State.candidates (s : State) (i : Nat) : List Candidate :=
  s.literalCandidate i :: (s.approxCandidates i ++ s.exactCandidates i)

/-- `c` is the first candidate of `cs` whose cost is the minimum (R124). -/
def FirstMinimum (c : Candidate) (cs : List Candidate) : Prop :=
  ∃ before after, cs = before ++ c :: after ∧
    (∀ x ∈ before, c.cost < x.cost) ∧ (∀ x ∈ after, c.cost ≤ x.cost)

/-- Every cost above offset `i` is within the bound of R131, so that no sum wraps (R114). -/
abbrev State.CostsBounded (s : State) (i : Nat) : Prop :=
  ∀ o, o ≤ s.n → i < o → (s.costEntry o).toNat ≤ 2 * (s.n - o)

/-! ## The events of a step -/

/-- The event a step handles, if one is pending. -/
def State.nextEvent (s : State) : Option Event := s.host.inbox.head?

/-- The step is the block's turn: the host leaves this step to the block, or nothing is pending and
no consumer is decoding (log entry 2). -/
abbrev State.BlockMoves (s : State) : Prop :=
  s.nextEvent = some .blockStep ∨ (s.nextEvent = none ∧ s.cons.verdict ≠ .decoding)

/-- The step takes START: a write of CTRL with bit 0 set, outside RUN, with a legal NLEN (R151). -/
abbrev State.Starts (s : State) : Prop :=
  s.block.phase ≠ .run ∧ s.n ≤ Config.NMAX ∧
  ∃ b v, s.nextEvent = some (.write ⟨spaceCsr, 0, b⟩ v) ∧ startBit v = true

/-- A write the block accepts as an input: REF, TGT below NMAX, or NLEN (R157). -/
def Target.isInput (t : Target) : Bool :=
  (t.space == spaceCsr && t.index == 2) ||
  ((t.space == spaceRef || t.space == spaceTgt) && decide (t.index < Config.NMAX))

end Sys2Proof.Machine
end

