-- ==== Sys2Proof/Certificates/Slice0/Obligations.lean ====
section
/-! DEFINITION. The statements for the provers. Each docstring names the rules of spec/ it
formalises; where a clause is the model's own choice it names the log entry. -/

open Sys2Proof Sys2Proof.Machine

/-! ## Encoding -/

/-- R61 to R69: decoding an encoded well-formed token gives it back, with what follows it. -/
def Obligations.DecodeOfEncodeIsTheToken : Prop :=
  ∀ (i : Instr) (rest : List Byte), i.wellFormed = true → decode (encode i ++ rest) = .ok (i, rest)

/-- R61 to R69, the other way: what the decoder accepts is a well-formed token, and its encoding
followed by the rest is the input. -/
def Obligations.EncodeOfDecodeIsTheBytes : Prop :=
  ∀ (bs : List Byte) (i : Instr) (rest : List Byte), decode bs = .ok (i, rest) →
    i.wellFormed = true ∧ bs = encode i ++ rest

/-- R60, R70, R71: all 256 tags are assigned, and the tag alone selects the format; 74 bytes after
the tag are enough for any token. -/
def Obligations.TagAloneSelectsTheFormat : Prop :=
  ∀ (tag : Byte) (bs : List Byte), 74 ≤ bs.length →
    ∃ i rest, decode (tag :: bs) = .ok (i, rest) ∧
      (tag.toNat = 0x00 → ∃ x, i = .lit1 x) ∧
      (tag.toNat = 0x01 → ∃ x0 x1, i = .lit2 x0 x1) ∧
      (0x02 ≤ tag.toNat ∧ tag.toNat ≤ 0x7F → ∃ len addr, i = .exactMatch len addr) ∧
      (0x80 ≤ tag.toNat → ∃ len addr bm ps, i = .approxMatch len addr bm ps)

/-- R75: a token's length computed from the bytes of a stream it begins, 2 to 75. -/
def Obligations.TokenLengthFromItsOwnBytes : Prop :=
  ∀ (i : Instr) (rest : List Byte), i.wellFormed = true →
    toklen (encode i ++ rest) = (encode i).length ∧
    2 ≤ (encode i).length ∧ (encode i).length ≤ 75

/-- R67: the encode and decode pairs of R65 and R66 are inverses, the images are the two tag
ranges, and an exact match of length 64 would get an APPROX tag of length 1. -/
def Obligations.TagPairsAreInverse : Prop :=
  (∀ (len : Nat) (ah : Bool), 1 ≤ len → len ≤ 63 →
    exactLen (exactTag len ah) = len ∧ (exactTag len ah).getLsbD 0 = ah ∧
    0x02 ≤ (exactTag len ah).toNat ∧ (exactTag len ah).toNat ≤ 0x7F) ∧
  (∀ tag : Byte, 0x02 ≤ tag.toNat → tag.toNat ≤ 0x7F →
    exactTag (exactLen tag) (tag.getLsbD 0) = tag ∧ 1 ≤ exactLen tag ∧ exactLen tag ≤ 63) ∧
  (∀ (len : Nat) (ah : Bool), 1 ≤ len → len ≤ 64 →
    approxLen (approxTag len ah) = len ∧ (approxTag len ah).getLsbD 0 = ah ∧
    0x80 ≤ (approxTag len ah).toNat) ∧
  (∀ tag : Byte, 0x80 ≤ tag.toNat →
    approxTag (approxLen tag) (tag.getLsbD 0) = tag ∧ 1 ≤ approxLen tag ∧ approxLen tag ≤ 64) ∧
  (∀ ah : Bool, 0x80 ≤ (exactTag 64 ah).toNat ∧ approxLen (exactTag 64 ah) = 1)

/-- Words written out from the spec's encodings decode to their tokens, one of each format: the LIT2
word from its format (30_encoding.md R62), the others from 95_test_vectors.md sections 3 and 4. -/
def Obligations.SampleWordsDecode : Prop :=
  decode [0x00, 0x0C] = .ok (.lit1 0x0C, []) ∧
  decode [0x01, 0xAA, 0xBB] = .ok (.lit2 0xAA 0xBB, []) ∧
  decode [0x0A, 0xCD, 0xAB] = .ok (.exactMatch 5 0x0ABCD, []) ∧
  decode [0x7F, 0xC1, 0xFF] = .ok (.exactMatch 63 0x1FFC1, []) ∧
  decode [0x8E, 0x00, 0x00, 0x10, 0x0C] = .ok (.approxMatch 8 0 [0x10] [0x0C], []) ∧
  decode [0x96, 0x00, 0x00, 0x08, 0x02, 0x23, 0xFF] =
    .ok (.approxMatch 12 0 [0x08, 0x02] [0x23, 0xFF], [])

/-! ## The consumer -/

/-- R80 with the decoder: a decoding consumer with no event pending, or whose turn the event is,
runs exactly the token its stream begins with, its bytes gone from the stream. (That with no event
pending the consumer moves, and not a block with an enabled step, is the model's choice, log
entry 2.) -/
def Obligations.StepRunsTheDecodedToken : Prop :=
  ∀ (s : State) (i : Instr) (rest : List Byte),
    s.cons.verdict = .decoding → decode s.cons.stream = .ok (i, rest) →
    (s.host.inbox = [] → step s = exec i (s.setStream rest)) ∧
    (∀ more, s.host.inbox = .consumerStep :: more →
      step s = exec i ((s.setInbox more).setStream rest))

/-- R81, with the frame of LIT1. -/
def Obligations.Lit1XorsTheReferenceByte : Prop :=
  ∀ (s : State) (x : Byte), s.cons.o < s.cons.n →
    ∃ t, exec (.lit1 x) s = .next t ∧
      Memory.read t.cons.out s.cons.o = some (s.consRefByte s.cons.o ^^^ x) ∧
      t.cons.o = s.cons.o + 1 ∧
      (∀ a, a ≠ s.cons.o → Memory.read t.cons.out a = Memory.read s.cons.out a) ∧
      t.cons.ref = s.cons.ref ∧ t.cons.n = s.cons.n ∧ t.cons.stream = s.cons.stream ∧
      t.cons.verdict = s.cons.verdict ∧ t.block = s.block ∧ t.host = s.host

/-- R83, with the frame of EXACT. -/
def Obligations.ExactCopiesFromTheReference : Prop :=
  ∀ (s : State) (len : Nat) (addr : RefAddr),
    s.cons.o + len ≤ s.cons.n → addr.toNat + len ≤ s.cons.n →
    ∃ t, exec (.exactMatch len addr) s = .next t ∧
      (∀ p, p < len →
        Memory.read t.cons.out (s.cons.o + p) = some (s.consRefByte (addr.toNat + p))) ∧
      t.cons.o = s.cons.o + len ∧
      (∀ a, a < s.cons.o ∨ s.cons.o + len ≤ a →
        Memory.read t.cons.out a = Memory.read s.cons.out a) ∧
      t.cons.ref = s.cons.ref ∧ t.cons.n = s.cons.n ∧ t.cons.stream = s.cons.stream ∧
      t.cons.verdict = s.cons.verdict ∧ t.block = s.block ∧ t.host = s.host

/-- R84, with the frame of APPROX: at a position whose bit is 1 the copied byte is xored with the
patch byte whose number is the count of 1 bits below that position. -/
def Obligations.ApproxCopiesAndPatches : Prop :=
  ∀ (s : State) (len : Nat) (addr : RefAddr) (bm ps : List Byte),
    (Instr.approxMatch len addr bm ps).wellFormed = true → padBits len bm = false →
    s.cons.o + len ≤ s.cons.n → addr.toNat + len ≤ s.cons.n →
    ∃ t, exec (.approxMatch len addr bm ps) s = .next t ∧
      (∀ p, p < len →
        Memory.read t.cons.out (s.cons.o + p) =
          some (if bitAt bm p then
              s.consRefByte (addr.toNat + p) ^^^ ps.getD ((List.range p).countP (bitAt bm)) 0
            else s.consRefByte (addr.toNat + p))) ∧
      t.cons.o = s.cons.o + len ∧
      (∀ a, a < s.cons.o ∨ s.cons.o + len ≤ a →
        Memory.read t.cons.out a = Memory.read s.cons.out a) ∧
      t.cons.ref = s.cons.ref ∧ t.cons.n = s.cons.n ∧ t.cons.stream = s.cons.stream ∧
      t.cons.verdict = s.cons.verdict ∧ t.block = s.block ∧ t.host = s.host

/-- R82: the model of the consumer refuses LIT2, whose token is 3 bytes long: the consumer fails and
nothing is written; and no candidate of the block is one. (That the refusal is a verdict, with OUT
and `o` as they were, is the model's choice, log entry 8; that it is reported wherever `o` stands, log
entry 9.) -/
def Obligations.Lit2IsRejectedAndNeverBuilt : Prop :=
  (∀ (s : State) (x0 x1 : Byte), (encode (.lit2 x0 x1)).length = 3 ∧
    ∃ t, exec (.lit2 x0 x1) s = .next t ∧ t.cons.verdict = .failed .lit2 ∧
      t.cons.out = s.cons.out ∧ t.cons.o = s.cons.o ∧ t.cons.ref = s.cons.ref ∧
      t.cons.n = s.cons.n ∧ t.cons.stream = s.cons.stream ∧ t.block = s.block ∧
      t.host = s.host) ∧
  (∀ (s : State) (i : Nat) (c : Candidate), c ∈ s.candidates i →
    ∀ x0 x1 rest, decode c.token ≠ .ok (.lit2 x0 x1, rest))

/-- R85: a token that would write past `N` makes the consumer fail; nothing is written. (That the
tokens after it are not read, that OUT keeps what was written before, and that this failure is reported
before a bad reference window or bitmap bit, is the model's choice, log entry 9.) -/
def Obligations.WritePastTheEndFails : Prop :=
  ∀ (s : State),
    (∀ x, s.cons.n ≤ s.cons.o → ∃ t, exec (.lit1 x) s = .next t ∧
      t.cons.verdict = .failed .overrun ∧ t.cons.out = s.cons.out ∧ t.cons.o = s.cons.o) ∧
    (∀ len addr, s.cons.n < s.cons.o + len → ∃ t, exec (.exactMatch len addr) s = .next t ∧
      t.cons.verdict = .failed .overrun ∧ t.cons.out = s.cons.out ∧ t.cons.o = s.cons.o) ∧
    (∀ len addr bm ps, s.cons.n < s.cons.o + len →
      ∃ t, exec (.approxMatch len addr bm ps) s = .next t ∧
        t.cons.verdict = .failed .overrun ∧ t.cons.out = s.cons.out ∧ t.cons.o = s.cons.o)

/-- 93_implementation_defined.md U5 and U4: a match token that copies from past the reference
buffer, and an APPROX token with a 1 in an unused bitmap bit, are rejected. The model's choice
among what the spec allows, log entries 10 and 11; that OUT is unchanged, and that the bad window is
reported whatever the bitmap holds, is the model's choice too, log entry 9. -/
def Obligations.BadWindowsAndPadBitsAreRejected : Prop :=
  ∀ (s : State) (len : Nat) (addr : RefAddr), s.cons.o + len ≤ s.cons.n →
    (s.cons.n < addr.toNat + len → ∃ t, exec (.exactMatch len addr) s = .next t ∧
      t.cons.verdict = .failed .refWindow ∧ t.cons.out = s.cons.out) ∧
    (∀ bm ps, s.cons.n < addr.toNat + len → ∃ t, exec (.approxMatch len addr bm ps) s = .next t ∧
      t.cons.verdict = .failed .refWindow ∧ t.cons.out = s.cons.out) ∧
    (∀ bm ps, addr.toNat + len ≤ s.cons.n → padBits len bm = true →
      ∃ t, exec (.approxMatch len addr bm ps) s = .next t ∧
        t.cons.verdict = .failed .padBit ∧ t.cons.out = s.cons.out)

/-- R85 and U19: at the end of the stream a consumer succeeds exactly if `o = N`, else reports a
length mismatch; a stream that ends inside a token fails. (The two reasons' names, that a
cut token is reported as cut whatever else is wrong with it, and that nothing of it is written, are
the model's choice, log entry 24; that the consumer moves when no event is pending, log entry 2.) -/
def Obligations.EndOfStreamVerdict : Prop :=
  ∀ (s : State), s.host.inbox = [] → s.cons.verdict = .decoding →
    (decode s.cons.stream = .error .endOfStream → ∃ t, step s = .next t ∧
      (s.cons.o = s.cons.n → t.cons.verdict = .success) ∧
      (s.cons.o ≠ s.cons.n → t.cons.verdict = .failed .underrun) ∧
      t.cons.out = s.cons.out ∧ t.block = s.block) ∧
    (decode s.cons.stream = .error .truncated → ∃ t, step s = .next t ∧
      t.cons.verdict = .failed .truncated ∧ t.cons.out = s.cons.out ∧ t.block = s.block)

/-- The frame of every token (R80): whichever it is, it leaves the block, the host and the
consumer's reference, length and stream as they are, OUT changes only between the old and the new
cursor, and the cursor never moves back. (That a failing token writes nothing is the model's choice,
log entries 8 and 9.) -/
def Obligations.TokensChangeOnlyOutputAndCursor : Prop :=
  ∀ (i : Instr) (s t : State), exec i s = .next t →
    t.block = s.block ∧ t.host = s.host ∧ t.cons.ref = s.cons.ref ∧ t.cons.n = s.cons.n ∧
    t.cons.stream = s.cons.stream ∧ s.cons.o ≤ t.cons.o ∧
    ∀ a, a < s.cons.o ∨ t.cons.o ≤ a → Memory.read t.cons.out a = Memory.read s.cons.out a

/-! ## The token encoder and the match scanner

Where an input byte was never written, what these statements say of it is about its free value, one
value within a step: the model's choice, log entries 4 and 26. -/

/-- R140, R142, R143 against the formats R61, R63, R64: what TE renders decodes to the token meant;
the bitmap of TE.APPROX is 1 exactly where target and reference differ, has no 1 in an unused bit,
and the patch bytes are the xors at those positions, lowest first. -/
def Obligations.RenderedTokensDecode : Prop :=
  ∀ (s : State) (rest : List Byte),
    (∀ i, decode (s.teLit1 i ++ rest) = .ok (.lit1 (s.refByte i ^^^ s.tgtByte i), rest)) ∧
    (∀ len a, 1 ≤ len → len ≤ 63 → decode (teExact len a ++ rest) = .ok (.exactMatch len a, rest)) ∧
    (∀ i j k, 1 ≤ k → k ≤ 64 → j < Config.NMAX →
      ∃ bm ps, decode (s.teApprox i j k ++ rest) =
          .ok (.approxMatch k (BitVec.ofNat 17 j) bm ps, rest) ∧
        (∀ p, p < k → (bitAt bm p = true ↔ s.tgtByte (i + p) ≠ s.refByte (j + p))) ∧
        padBits k bm = false ∧
        ps = ((List.range k).filter (bitAt bm)).map
          (fun p => s.refByte (j + p) ^^^ s.tgtByte (i + p)))

/-- R90: `M` is the greatest `m` in `0..LIM` with `TGT[i+p] = REF[j+p]` for all `p < m`. -/
def Obligations.RunLengthIsTheLongest : Prop :=
  ∀ (s : State) (i j m : Nat), m ≤ s.msLim i j →
    ((∀ p, p < m → s.tgtByte (i + p) = s.refByte (j + p)) ↔ m ≤ s.msRunlen i j) ∧
    s.msRunlen i j ≤ s.msLim i j

/-- R91: LIM is `min(64, N - i, N - j)`, a value in 1..64, and 1 at the last offset of either
buffer. -/
def Obligations.BoundAtAPairOfOffsets : Prop :=
  ∀ (s : State) (i j : Nat), i < s.n → j < s.n →
    s.msLim i j = min 64 (min (s.n - i) (s.n - j)) ∧
    1 ≤ s.msLim i j ∧ s.msLim i j ≤ 64 ∧
    (i = s.n - 1 ∨ j = s.n - 1 → s.msLim i j = 1)

/-- R94, R97: the mismatches of an extension `k` of a positive run `M`: at most `k - M`, none
exactly when `k = M`, at most 63, growing by at most 1 with `k`; position 0 matches. -/
def Obligations.MismatchesOfAnExtension : Prop :=
  ∀ (s : State) (i j k : Nat), 0 < s.msRunlen i j → s.msRunlen i j ≤ k → k ≤ s.msLim i j →
    s.tgtByte i = s.refByte j ∧ i + k ≤ s.n ∧ j + k ≤ s.n ∧
    s.msDiffs i j k ≤ k - s.msRunlen i j ∧ s.msDiffs i j k ≤ 63 ∧
    (s.msDiffs i j k = 0 ↔ k = s.msRunlen i j) ∧
    s.msDiffs i j k ≤ s.msDiffs i j (k + 1) ∧ s.msDiffs i j (k + 1) ≤ s.msDiffs i j k + 1

/-- R95: `MS.ASIZE(k, D)` is `3 + ceil8(k) + D`, 4 to 74 over its operands, and the length of the
token TE renders for the candidate. -/
def Obligations.ApproxTokenSize : Prop :=
  (∀ k d : Nat, msAsize k d = 3 + (k + 7) / 8 + d ∧
    (1 ≤ k → k ≤ 64 → d ≤ 63 → 4 ≤ msAsize k d ∧ msAsize k d ≤ 74)) ∧
  ∀ (s : State) (i j k : Nat),
    (s.teApprox i j k).length = msAsize k (s.msDiffs i j k) ∧
    (0 < s.msRunlen i j → s.msRunlen i j ≤ k → k ≤ s.msLim i j →
      4 ≤ (s.teApprox i j k).length ∧ (s.teApprox i j k).length ≤ 74)

/-- R93: after the scan of offset `I` the registers hold the longest run over all of `[0, N)` and,
when it is positive, the least `j` that attains it; when it is 0 no reference byte equals
`TGT[I]`. -/
def Obligations.ScanFindsTheBestPair : Prop :=
  ∀ (s : State) (w : Work), s.n ≤ Config.NMAX →
    let w' := s.msScan w
    (∀ j, j < s.n → s.msRunlen w.i.toNat j ≤ w'.bestM.toNat) ∧
    (0 < w'.bestM.toNat →
      w'.bestJ.toNat < s.n ∧ s.msRunlen w.i.toNat w'.bestJ.toNat = w'.bestM.toNat ∧
      ∀ j, j < w'.bestJ.toNat → s.msRunlen w.i.toNat j < w'.bestM.toNat) ∧
    (w'.bestM.toNat = 0 → w.i.toNat < s.n →
      ∀ j, j < s.n → s.tgtByte w.i.toNat ≠ s.refByte j)

/-! ## The cost-table builder -/

/-- R132, R124: an offset step commits the first candidate, in the order of R113, of minimal total
cost: its cost, the offset it reaches, and its token. (That this holds over input bytes never written
too, on their free values, is the model's choice, log entries 4 and 26.) -/
def Obligations.OffsetStepCommitsTheFirstMinimum : Prop :=
  ∀ (s : State), s.block.phase = .run → s.n ≤ Config.NMAX →
    0 < s.block.cur.toNat → s.block.cur.toNat ≤ s.n →
    s.CostsBounded (s.block.cur.toNat - 1) →
    let i := s.block.cur.toNat - 1
    let t := s.blockStep
    ∃ c, FirstMinimum c (s.candidates i) ∧
      (t.costEntry i).toNat = c.cost ∧ (t.transEntry i).toNat = i + c.len ∧ t.token i = c.token

/-- R123, R127, with the frame: an offset step writes entry `I = CUR - 1` of the four tables, of
TOK only the bytes of the token, and CUR; nothing else but the working registers. -/
def Obligations.OffsetStepWritesOneEntry : Prop :=
  ∀ (s : State), s.block.phase = .run → 0 < s.block.cur.toNat →
    let i := s.block.cur.toNat - 1
    let t := s.blockStep
    t.block.cur.toNat = i ∧ t.EntryWritten i ∧
    t.block.phase = .run ∧ t.block.nlen = s.block.nlen ∧ t.block.ref = s.block.ref ∧
    t.block.tgt = s.block.tgt ∧ t.block.errCfg = s.block.errCfg ∧
    t.block.errBusyWr = s.block.errBusyWr ∧ t.cons = s.cons ∧ t.host = s.host ∧
    (∀ a, a ≠ i → Memory.read t.block.cost a = Memory.read s.block.cost a ∧
      Memory.read t.block.trans a = Memory.read s.block.trans a ∧
      Memory.read t.block.toklen a = Memory.read s.block.toklen a) ∧
    (∀ a, a < tokKey i 0 ∨ tokKey i (t.toklenEntry i).toNat ≤ a →
      Memory.read t.block.tok a = Memory.read s.block.tok a)

/-- R14: no working register carries a value from one offset step to the next, and none is readable
or writable by the host. (That an unspecified value, read or left in a register, does not depend on
them is the model's choice, log entry 27.) -/
def Obligations.OffsetStepIgnoresOldWorkingRegisters : Prop :=
  ∀ (s : State) (w : Work),
    ({ s with block := { s.block with work := w } }).offsetStep = s.offsetStep ∧
    (∀ tg, ({ s with block := { s.block with work := w } }).hostReadValue tg = s.hostReadValue tg) ∧
    (∀ tg v, (s.hostWrite tg v).block.work = s.block.work)

/-- R154: a run of length `N` is exactly `N` offset steps, CUR counting down by one, and the
completion step. -/
def Obligations.RunIsExactlyNOffsetSteps : Prop :=
  ∀ (s : State), s.block.phase ≠ .run → s.n ≤ Config.NMAX →
    (∀ k, k ≤ s.n → (s.start.blockSteps k).block.phase = .run ∧
      (s.start.blockSteps k).block.cur.toNat + k = s.n) ∧
    s.finished.block.phase = .done ∧ s.finished.block.cur.toNat = 0

/-- R128 at the end of a run over written inputs. -/
def Obligations.ForwardProgress : Prop :=
  ∀ (s : State), s.Ready → ∀ i, i < s.n →
    i < (s.finished.transEntry i).toNat ∧
    (s.finished.transEntry i).toNat ≤ min (i + 64) s.n

/-- R129 at the end of a run over written inputs. -/
def Obligations.CostIsTokenPlusSuccessor : Prop :=
  ∀ (s : State), s.Ready →
    (s.finished.costEntry s.n).toNat = 0 ∧
    ∀ i, i < s.n → (s.finished.costEntry i).toNat =
      (s.finished.toklenEntry i).toNat +
        (s.finished.costEntry (s.finished.transEntry i).toNat).toNat

/-- R130 at the end of a run over written inputs. -/
def Obligations.TableTokensAreWellShaped : Prop :=
  ∀ (s : State), s.Ready → ∀ i, i < s.n → s.finished.TokenShape i

/-- R131 at the end of a run over written inputs. -/
def Obligations.CostsAreMonotoneAndBounded : Prop :=
  ∀ (s : State), s.Ready → ∀ i, i < s.n →
    (s.finished.costEntry i).toNat ≤ (s.finished.costEntry (i + 1)).toNat + 2 ∧
    (s.finished.costEntry i).toNat ≤ 2 * (s.n - i) ∧ 2 ≤ (s.finished.costEntry i).toNat

/-- R134 at the end of a run over written inputs. -/
def Obligations.MatchWindowsStayInside : Prop :=
  ∀ (s : State), s.Ready → ∀ i, i < s.n → s.finished.AddressRange i

/-- R136 at the end of a run over written inputs. -/
def Obligations.TokensRebuildTheTarget : Prop :=
  ∀ (s : State), s.Ready → ∀ i, i < s.n → s.finished.Rebuilds i

/-- R133, R8: the finished tables are a function of the inputs over `[0, N)` and `N` alone. -/
def Obligations.TablesDependOnTheInputsAlone : Prop :=
  ∀ (s t : State), s.Ready → t.Ready → s.n = t.n →
    (∀ a, a < s.n → Memory.read s.block.ref a = Memory.read t.block.ref a ∧
      Memory.read s.block.tgt a = Memory.read t.block.tgt a) →
    (∀ i, i ≤ s.n → s.finished.costEntry i = t.finished.costEntry i) ∧
    (∀ i, i < s.n → s.finished.transEntry i = t.finished.transEntry i ∧
      s.finished.toklenEntry i = t.finished.toklenEntry i ∧
      s.finished.token i = t.finished.token i)

/-- R135 with R166: after a run over written inputs the chain from offset 0 visits strictly rising
offsets and its last transition is `N`, in `ceil(N / 64)` to `N` steps; the read-out walk neither
fails nor stalls and gives the tokens along it, `COST[0]` bytes, at most `2 * N`; and a consumer
given REF, N and that stream ends in success with OUT equal to TGT. -/
def Obligations.StreamDecodesToTheTarget : Prop :=
  ∀ (s : State), s.Ready →
    let path := s.finished.chain s.n 0
    path.Pairwise (· < ·) ∧ path.length ≤ s.n ∧ s.n ≤ 64 * path.length ∧
    (∀ o, path.getLast? = some o → (s.finished.transEntry o).toNat = s.n) ∧
    ∃ bytes, s.finished.walkResult = .stream bytes ∧
      bytes = path.flatMap s.finished.token ∧
      bytes.length = (s.finished.costEntry 0).toNat ∧ bytes.length ≤ 2 * s.n ∧
      ∃ k t, Host.Core.run Sys2Proof.core k
          ((s.finished.setInbox []).beginDecode s.finished.block.ref s.n bytes) = .next t ∧
        t.cons.verdict = .success ∧ t.cons.o = s.n ∧
        ∀ a, a < s.n → Memory.read t.cons.out a = Memory.read s.block.tgt a

/-- R16, R31, R128 to R136: what holds of the tables in RUN and DONE is kept by every step of the
whole machine, whatever the host and the consumer do. -/
def Obligations.TablesInvariantIsKept : Prop :=
  ∀ (s t : State), s.TablesInv → step s = .next t → t.TablesInv

/-- The tables' invariant holds at reset (no run has started, R33). -/
def Obligations.TablesInvariantAtReset : Prop := State.reset.TablesInv

/-! ## Control and host operations -/

/-- R26, R15 to R17, R45: every step keeps the memories canonical and inside their spaces, the
control state legal, and the consumer inside its OUT. -/
def Obligations.WellFormednessIsKept : Prop :=
  ∀ (s t : State), s.Wf → step s = .next t → t.Wf

/-- The state after reset is well formed, with the values R33 states; the registers' zeros are the
model's choice, log entry 6. -/
def Obligations.ResetIsWellFormed : Prop :=
  State.reset.Wf ∧ State.reset.block.phase = .idle ∧ State.reset.block.cur = 0 ∧
  State.reset.block.nlen = 0 ∧ State.reset.block.errCfg = false ∧
  State.reset.block.errBusyWr = false ∧ State.reset.block.statusWord = 0

/-- R151: START with a legal NLEN, in IDLE or DONE. -/
def Obligations.StartBeginsARun : Prop :=
  ∀ (s : State) (b : Nat) (v : Word), s.block.phase ≠ .run → s.n ≤ Config.NMAX →
    v.getLsbD 0 = true →
    let t := s.hostWrite ⟨spaceCsr, 0, b⟩ v
    t.block.phase = .run ∧ t.block.cur = s.block.nlen ∧
    Memory.read t.block.cost s.n = some 0 ∧
    (∀ a, a ≠ s.n → Memory.read t.block.cost a = Memory.read s.block.cost a) ∧
    t.block.nlen = s.block.nlen ∧ t.block.errCfg = s.block.errCfg ∧
    t.block.errBusyWr = s.block.errBusyWr ∧ t.block.ref = s.block.ref ∧
    t.block.tgt = s.block.tgt ∧ t.block.trans = s.block.trans ∧
    t.block.toklen = s.block.toklen ∧ t.block.tok = s.block.tok ∧
    t.cons = s.cons ∧ t.host = s.host

/-- R170: START with NLEN above NMAX sets ERR_CFG and changes nothing else; no other host write
sets it. -/
def Obligations.IllegalStartIsRefused : Prop :=
  (∀ (s : State) (b : Nat) (v : Word), s.block.phase ≠ .run → Config.NMAX < s.n →
    v.getLsbD 0 = true →
    s.hostWrite ⟨spaceCsr, 0, b⟩ v = { s with block := { s.block with errCfg := true } }) ∧
  (∀ (s : State) (tg : Target) (v : Word),
    (s.hostWrite tg v).block.errCfg ≠ s.block.errCfg →
      s.block.phase ≠ .run ∧ Config.NMAX < s.n ∧ tg.space = spaceCsr ∧ tg.index = 0 ∧
      v.getLsbD 0 = true)

/-- R158, R171, R174: any HostWrite in RUN, START with an illegal NLEN among them, sets ERR_BUSYWR
and changes nothing else. -/
def Obligations.WritesInRunAreDropped : Prop :=
  ∀ (s : State) (tg : Target) (v : Word), s.block.phase = .run →
    s.hostWrite tg v = { s with block := { s.block with errBusyWr := true } }

/-- R157: a write of REF, TGT or NLEN outside RUN is performed and leaves PHASE IDLE; nothing else
changes; an index at or above NMAX is ignored. (A value wider than its byte gives its low bits: the
model's reading, log entry 23.) -/
def Obligations.InputWritesArePerformed : Prop :=
  ∀ (s : State) (a b : Nat) (v : Word), s.block.phase ≠ .run →
    (a < Config.NMAX →
      let t := s.hostWrite ⟨spaceRef, a, b⟩ v
      Memory.read t.block.ref a = some (v.setWidth 8) ∧ t.block.phase = .idle ∧
      (∀ c, c ≠ a → Memory.read t.block.ref c = Memory.read s.block.ref c) ∧
      t = { s with block := { s.block with ref := t.block.ref, phase := .idle } }) ∧
    (a < Config.NMAX →
      let t := s.hostWrite ⟨spaceTgt, a, b⟩ v
      Memory.read t.block.tgt a = some (v.setWidth 8) ∧ t.block.phase = .idle ∧
      (∀ c, c ≠ a → Memory.read t.block.tgt c = Memory.read s.block.tgt c) ∧
      t = { s with block := { s.block with tgt := t.block.tgt, phase := .idle } }) ∧
    (Config.NMAX ≤ a → s.hostWrite ⟨spaceRef, a, b⟩ v = s ∧ s.hostWrite ⟨spaceTgt, a, b⟩ v = s) ∧
    s.hostWrite ⟨spaceCsr, 2, b⟩ v =
      { s with block := { s.block with nlen := v.setWidth 18, phase := .idle } }

/-- R159, R156: outside RUN a write that is neither an input nor a START changes nothing. -/
def Obligations.OtherWritesAreIgnored : Prop :=
  ∀ (s : State) (tg : Target) (v : Word), s.block.phase ≠ .run → tg.isInput = false →
    ¬ (tg.space = spaceCsr ∧ tg.index = 0 ∧ v.getLsbD 0 = true) → s.hostWrite tg v = s

/-- R160: what a read of each control register gives, in every phase, with no side effect on the
block or the consumer. -/
def Obligations.ControlRegistersReadAsSpecified : Prop :=
  ∀ (s : State) (b : Nat),
    (s.hostReadValue ⟨spaceCsr, 0, b⟩ = 0) ∧
    (s.hostReadValue ⟨spaceCsr, 1, b⟩).toNat =
      s.block.phase.code.toNat + 4 * s.block.errCfg.toNat + 8 * s.block.errBusyWr.toNat ∧
    (s.hostReadValue ⟨spaceCsr, 2, b⟩).toNat = s.n ∧
    (s.hostReadValue ⟨spaceCsr, 3, b⟩).toNat = s.block.cur.toNat ∧
    (∀ n, 4 ≤ n → s.hostReadValue ⟨spaceCsr, n, b⟩ = 0) ∧
    (∀ n, (s.hostRead ⟨spaceCsr, n, b⟩).block = s.block ∧
      (s.hostRead ⟨spaceCsr, n, b⟩).cons = s.cons ∧
      (s.hostRead ⟨spaceCsr, n, b⟩).host.rdata = s.hostReadValue ⟨spaceCsr, n, b⟩)

/-- R161, R162: what a read of an input buffer outside RUN and of a table in DONE gives at an entry
that has been written, inside the used range. (That an entry narrower than 32 bits is returned
zero-extended to 32 bits is the model's choice, log entry 13.) -/
def Obligations.BufferAndTableReads : Prop :=
  ∀ (s : State) (a b : Nat),
    (∀ x, s.block.phase ≠ .run → a < Config.NMAX → Memory.read s.block.ref a = some x →
      s.hostReadValue ⟨spaceRef, a, b⟩ = x.setWidth 32) ∧
    (∀ x, s.block.phase ≠ .run → a < Config.NMAX → Memory.read s.block.tgt a = some x →
      s.hostReadValue ⟨spaceTgt, a, b⟩ = x.setWidth 32) ∧
    (s.block.phase = .done →
      (∀ x, a ≤ s.n → Memory.read s.block.cost a = some x →
        s.hostReadValue ⟨spaceCost, a, b⟩ = x) ∧
      (∀ x, a < s.n → Memory.read s.block.trans a = some x →
        s.hostReadValue ⟨spaceTrans, a, b⟩ = x.setWidth 32) ∧
      (∀ x, a < s.n → Memory.read s.block.toklen a = some x →
        s.hostReadValue ⟨spaceToklen, a, b⟩ = x.setWidth 32) ∧
      (∀ l x, a < s.n → Memory.read s.block.toklen a = some l → b < l.toNat →
        Memory.read s.block.tok (tokKey a b) = some x →
        s.hostReadValue ⟨spaceTok, a, b⟩ = x.setWidth 32))

/-- R162, R160: no read changes the block or the consumer; it only returns its value. (That the host keeps
it in `rdata`, 32 bits wide, is the model's choice, log entry 13.) -/
def Obligations.ReadsChangeNothing : Prop :=
  ∀ (s : State) (tg : Target) (more : List Event), s.host.inbox = .read tg :: more →
    ∃ t, step s = .next t ∧ t.block = s.block ∧ t.cons = s.cons ∧
      t.host.rdata = (s.setInbox more).hostReadValue tg ∧ t.host.inbox = more ∧
      t.host.asm = s.host.asm

/-- R185: Reset, in any phase. The memories hold no written entry, so every entry is unspecified;
the consumer and the host are not the block (log entry 1). -/
def Obligations.ResetClearsTheControlState : Prop :=
  ∀ (s : State) (more : List Event), s.host.inbox = .reset :: more →
    ∃ t, step s = .next t ∧ t.block.phase = .idle ∧ t.block.cur = 0 ∧ t.block.nlen = 0 ∧
      t.block.errCfg = false ∧ t.block.errBusyWr = false ∧
      (∀ a, Memory.read t.block.ref a = none ∧ Memory.read t.block.tgt a = none ∧
        Memory.read t.block.cost a = none ∧ Memory.read t.block.trans a = none ∧
        Memory.read t.block.toklen a = none ∧ Memory.read t.block.tok a = none) ∧
      t.cons = s.cons ∧ t.host.inbox = more

/-- R18, R170 to R172, R176: over any step but Reset a set flag stays set; ERR_CFG is raised only
by a START with NLEN above NMAX outside RUN, ERR_BUSYWR only by a HostWrite in RUN. -/
def Obligations.FlagsAreStickyAndRaisedOnlyByMisuse : Prop :=
  ∀ (s t : State), step s = .next t → s.nextEvent ≠ some .reset →
    (s.block.errCfg = true → t.block.errCfg = true) ∧
    (s.block.errBusyWr = true → t.block.errBusyWr = true) ∧
    (s.block.errCfg = false → t.block.errCfg = true →
      s.block.phase ≠ .run ∧ Config.NMAX < s.n ∧
      ∃ b v, s.nextEvent = some (.write ⟨spaceCsr, 0, b⟩ v) ∧ v.getLsbD 0 = true) ∧
    (s.block.errBusyWr = false → t.block.errBusyWr = true →
      s.block.phase = .run ∧ ∃ tg v, s.nextEvent = some (.write tg v))

/-- R150: PHASE changes only by START, the completion step, which the block takes, an input write in
DONE, or Reset. (Whose turn a step is: log entry 2.) -/
def Obligations.PhaseChangesOnlyAsTabled : Prop :=
  ∀ (s t : State), step s = .next t → t.block.phase ≠ s.block.phase →
    (s.Starts ∧ t.block.phase = .run) ∨
    (s.BlockMoves ∧ s.block.phase = .run ∧ s.block.cur.toNat = 0 ∧ t.block.phase = .done) ∨
    (s.block.phase = .done ∧ t.block.phase = .idle ∧
      ∃ tg v, s.nextEvent = some (.write tg v) ∧ tg.isInput = true) ∨
    (s.nextEvent = some .reset ∧ t.block.phase = .idle)

/-- R17, R16: over any step CUR stays, or counts down by one in RUN at the block's turn, or is set to
N by START, or to 0 by Reset. (Whose turn a step is: log entry 2.) -/
def Obligations.CursorOnlyCountsDown : Prop :=
  ∀ (s t : State), step s = .next t →
    t.block.cur = s.block.cur ∨
    (s.BlockMoves ∧ s.block.phase = .run ∧ t.block.cur.toNat + 1 = s.block.cur.toNat) ∨
    (s.Starts ∧ t.block.cur = s.block.nlen) ∨
    (s.nextEvent = some .reset ∧ t.block.cur = 0)

/-- R153: the completion step sets PHASE to DONE and changes nothing else. -/
def Obligations.CompletionStepOnlySetsDone : Prop :=
  ∀ (s : State), s.block.phase = .run → s.block.cur.toNat = 0 →
    s.host.inbox = [] → s.cons.verdict ≠ .decoding →
    step s = .next { s with block := { s.block with phase := .done } }

/-- R183, R152: in IDLE and DONE, with no host operation pending and no consumer decoding, the
machine waits and all state is kept. (R183 says that the block takes no step; that waiting is a step
which answers the same state is the model's choice, log entry 17.) -/
def Obligations.BlockWaitsOutsideRun : Prop :=
  ∀ (s : State), s.block.phase ≠ .run → s.host.inbox = [] → s.cons.verdict ≠ .decoding →
    step s = .next s

/-- R27, R51, R158: no step that starts in RUN, but Reset, changes REF, TGT or NLEN; and no step at
all changes them but a HostWrite or Reset. -/
def Obligations.InputsAreImmutableDuringARun : Prop :=
  ∀ (s t : State), step s = .next t → s.nextEvent ≠ some .reset →
    (s.block.phase = .run ∨ ∀ tg v, s.nextEvent ≠ some (.write tg v)) →
    t.block.ref = s.block.ref ∧ t.block.tgt = s.block.tgt ∧ t.block.nlen = s.block.nlen

/-- R166, R167: the host's event ASSEMBLE stores the result of the walk and changes nothing of the
block or the consumer; the walk stops at `N`, and a transition that does not advance, or passes
`N`, is reported. (That the whole walk is one event is the model's choice, log entry 20.) -/
def Obligations.ReadOutWalkReportsBadTransitions : Prop :=
  ∀ (s : State),
    (∀ more, s.host.inbox = .assemble :: more → ∃ t, step s = .next t ∧
      t.host.asm = (s.setInbox more).walkResult ∧ t.block = s.block ∧ t.cons = s.cons ∧
      t.host.inbox = more ∧ t.host.rdata = s.host.rdata) ∧
    (∀ fuel acc, s.walk fuel s.n acc = .stream acc) ∧
    (∀ fuel o acc, o ≠ s.n →
      ((s.hostReadValue { space := spaceTrans, index := o }).toNat ≤ o →
        s.walk (fuel + 1) o acc = .nonForward) ∧
      (o < (s.hostReadValue { space := spaceTrans, index := o }).toNat →
        s.n < (s.hostReadValue { space := spaceTrans, index := o }).toNat →
        s.walk (fuel + 1) o acc = .outOfBounds))

/-- R80: a consumer given a reference image, a length and a stream starts at `o = 0` with that
buffer, that length and that stream, nothing written to OUT. (The event itself, and
that it takes any `n` and a reference of any length, is the model's choice, log entries 1, 25.) -/
def Obligations.LoadingStartsAConsumer : Prop :=
  ∀ (s : State) (ref : List Byte) (n : Nat) (stream : List Byte) (more : List Event),
    s.host.inbox = .load ref n stream :: more →
    ∃ t, step s = .next t ∧ t.cons.o = 0 ∧ t.cons.n = n ∧ t.cons.stream = stream ∧
      t.cons.verdict = .decoding ∧ (∀ a, Memory.read t.cons.ref a = ref[a]?) ∧
      (∀ a, Memory.read t.cons.out a = none) ∧ t.block = s.block ∧ t.host.inbox = more

/-- R172 for the whole machine, the consumer included: no step and no token ends in a fault or a
refusal; every one answers a next state. (That a consumer's failure is a verdict and no stop is the
model's choice, log entry 9.) -/
def Obligations.EveryStepAnswersANextState : Prop :=
  (∀ s : State, ∃ t, step s = .next t) ∧ (∀ (i : Instr) (s : State), ∃ t, exec i s = .next t)

/-- R163, R157 to R159: a pending host write is performed by the step, which answers the state of
`State.hostWrite`, the event gone from the inbox; the consumer and the host's other fields stay. The
statements about `State.hostWrite` reach a run through this one. -/
def Obligations.StepPerformsTheHostWrite : Prop :=
  ∀ (s : State) (tg : Target) (v : Word) (more : List Event),
    s.host.inbox = .write tg v :: more →
    ∃ t, step s = .next t ∧ t = (s.setInbox more).hostWrite tg v ∧ t.cons = s.cons ∧
      t.host = { s.host with inbox := more }

/-- R152, R153, R183: at the block's turn the step is the block's step; that is the offset step in
RUN with `CUR > 0`, the completion step in RUN with `CUR = 0`, and nothing in IDLE and DONE. The
statements about `State.blockStep` reach a run through this one. (Whose turn a step is: the model's
choice, log entry 2; a waiting step, log entry 17.) -/
def Obligations.StepTakesTheBlockStep : Prop :=
  ∀ s : State,
    (s.host.inbox = [] → s.cons.verdict ≠ .decoding → step s = .next s.blockStep) ∧
    (∀ more, s.host.inbox = .blockStep :: more → step s = .next (s.setInbox more).blockStep) ∧
    (s.block.phase = .run → 0 < s.block.cur.toNat → s.blockStep = s.offsetStep) ∧
    (s.block.phase = .run → s.block.cur.toNat = 0 →
      s.blockStep = { s with block := { s.block with phase := .done } }) ∧
    (s.block.phase ≠ .run → s.blockStep = s)

/-- R76, R80, R85 at the consumer's own event: at the end of its stream it succeeds exactly if
`o = N`, inside a token it fails, and a consumer that is not decoding does nothing; all else but the
inbox stays. (The event, the reasons' names, and that a cut token is reported as cut whatever else is
wrong with it, are the model's choice, log entries 2 and 24.) -/
def Obligations.ConsumerTurnAtItsEvent : Prop :=
  ∀ (s : State) (more : List Event), s.host.inbox = .consumerStep :: more →
    (s.cons.verdict ≠ .decoding → step s = .next (s.setInbox more)) ∧
    (s.cons.verdict = .decoding → decode s.cons.stream = .error .endOfStream →
      s.cons.o = s.cons.n → step s = .next ((s.setInbox more).setVerdict .success)) ∧
    (s.cons.verdict = .decoding → decode s.cons.stream = .error .endOfStream →
      s.cons.o ≠ s.cons.n → step s = .next ((s.setInbox more).reject .underrun)) ∧
    (s.cons.verdict = .decoding → decode s.cons.stream = .error .truncated →
      step s = .next ((s.setInbox more).reject .truncated))
end

