-- ==== Sys2Proof/Laws/Decode.lean ====
section
/-! SUPPORT. What the fields of a token are as numbers (30_encoding.md R65 to R69), and the lengths
of encodings. -/

namespace Sys2Proof

theorem ceil8_eq (k : Nat) : ceil8 k = (k + 7) / 8 := by
  simp [ceil8, Nat.shiftRight_eq_div_pow]

theorem exactTag_toNat {len : Nat} (ah : Bool) (h1 : 1 ≤ len) (h2 : len ≤ 63) :
    (exactTag len ah).toNat = 2 * len + ah.toNat := by
  have := ah.toNat_lt
  simp only [exactTag, BitVec.toNat_ofNat, Nat.shiftLeft_eq]
  omega

theorem approxTag_toNat {len : Nat} (ah : Bool) (h1 : 1 ≤ len) (h2 : len ≤ 64) :
    (approxTag len ah).toNat = 126 + 2 * len + ah.toNat := by
  have := ah.toNat_lt
  simp only [approxTag, BitVec.toNat_ofNat, Nat.shiftLeft_eq]
  omega

theorem exactLen_eq (tag : Byte) : exactLen tag = tag.toNat / 2 := by
  have := tag.isLt
  simp only [exactLen, BitVec.extractLsb'_toNat, Nat.shiftRight_eq_div_pow]
  omega

theorem approxLen_eq (tag : Byte) : approxLen tag = tag.toNat / 2 % 64 + 1 := by
  simp only [approxLen, BitVec.extractLsb'_toNat, Nat.shiftRight_eq_div_pow]

theorem addrHigh_toNat (a : RefAddr) : (addrHigh a).toNat = a.toNat / 65536 := by
  have := a.isLt
  have h : a.toNat / 65536 < 2 := by omega
  simp only [addrHigh, BitVec.getLsbD, Nat.testBit_eq_decide_div_mod_eq]
  interval_cases hq : a.toNat / 65536 <;> simp_all

theorem addrLow_toNat (a : RefAddr) : (addrLow a).toNat = a.toNat % 256 := by
  simp [addrLow, BitVec.extractLsb'_toNat]

theorem addrMid_toNat (a : RefAddr) : (addrMid a).toNat = a.toNat / 256 % 256 := by
  simp [addrMid, BitVec.extractLsb'_toNat, Nat.shiftRight_eq_div_pow]

theorem addrOf_toNat (tag al am : Byte) :
    (addrOf tag al am).toNat = tag.toNat % 2 * 65536 + am.toNat * 256 + al.toNat := by
  have h1 := al.isLt
  have h2 := am.isLt
  have hlow : (am ++ al : BitVec 16).toNat = am.toNat * 256 + al.toNat := by
    rw [BitVec.toNat_append, Nat.shiftLeft_eq, Nat.mul_comm, ← Nat.two_pow_add_eq_or_of_lt h1]
  have h3 : (am ++ al : BitVec 16).toNat < 2 ^ (8 + 8) := by omega
  rw [addrOf, BitVec.toNat_append, Nat.shiftLeft_eq, Nat.mul_comm,
    ← Nat.two_pow_add_eq_or_of_lt h3, hlow, BitVec.extractLsb'_toNat]
  simp only [Nat.shiftRight_zero]
  omega

theorem getLsbD_zero_toNat (b : Byte) : (b.getLsbD 0).toNat = b.toNat % 2 := by
  rcases Nat.mod_two_eq_zero_or_one b.toNat with h | h <;>
    simp [BitVec.getLsbD, Nat.testBit_zero, h]

/-- An address split into the fields of a token (R68) and assembled again is the address. -/
theorem addrOf_fields (tag : Byte) (a : RefAddr) (h : tag.toNat % 2 = (addrHigh a).toNat) :
    addrOf tag (addrLow a) (addrMid a) = a := by
  have := a.isLt
  apply BitVec.eq_of_toNat_eq
  rw [addrOf_toNat, h, addrHigh_toNat, addrLow_toNat, addrMid_toNat]
  omega

theorem popcount_le (b : Byte) : popcount b ≤ 8 := by
  simpa [popcount] using (List.countP_le_length (p := fun q => b.getLsbD q) (l := List.range 8))

theorem popcounts_le (bm : List Byte) : popcounts bm ≤ 8 * bm.length := by
  induction bm with
  | nil => simp [popcounts]
  | cons b bs ih =>
    have := popcount_le b
    simp only [popcounts, List.map_cons, List.sum_cons, List.length_cons] at ih ⊢
    omega

/-- The parts of well-formedness of an APPROX token. -/
theorem approx_wellFormed {len : Nat} {addr : RefAddr} {bm ps : List Byte} :
    (Instr.approxMatch len addr bm ps).wellFormed = true ↔
      1 ≤ len ∧ len ≤ 64 ∧ bm.length = ceil8 len ∧ ps.length = popcounts bm := by
  simp [Instr.wellFormed, WellFormed.approxLength, WellFormed.bitmapSize, WellFormed.patchCount,
    and_assoc]

theorem exact_wellFormed {len : Nat} {addr : RefAddr} :
    (Instr.exactMatch len addr).wellFormed = true ↔ 1 ≤ len ∧ len ≤ 63 := by
  simp [Instr.wellFormed, WellFormed.exactLength]

@[simp] theorem encode_lit1_length (x : Byte) : (encode (.lit1 x)).length = 2 := rfl
@[simp] theorem encode_lit2_length (x0 x1 : Byte) : (encode (.lit2 x0 x1)).length = 3 := rfl
@[simp] theorem encode_exact_length (len : Nat) (a : RefAddr) :
    (encode (.exactMatch len a)).length = 3 := rfl
theorem encode_approx_length (len : Nat) (a : RefAddr) (bm ps : List Byte) :
    (encode (.approxMatch len a bm ps)).length = 3 + bm.length + ps.length := by
  simp [encode]; omega

/-- What decoding the body of an APPROX token can give. -/
theorem decodeApproxBody_ok {len : Nat} {a : RefAddr} {bs rest : List Byte} {i : Instr}
    (h : decodeApproxBody len a bs = .ok (i, rest)) :
    ∃ bm ps, i = .approxMatch len a bm ps ∧ bs = bm ++ ps ++ rest ∧
      bm.length = ceil8 len ∧ ps.length = popcounts bm := by
  simp only [decodeApproxBody] at h
  split at h
  · cases h
  · next hlen =>
    simp only [Except.ok.injEq, Prod.mk.injEq] at h
    obtain ⟨rfl, rfl⟩ := h
    refine ⟨_, _, rfl, ?_, ?_, ?_⟩
    · rw [List.append_assoc, ← List.drop_drop, List.take_append_drop, List.take_append_drop]
    · simp; omega
    · simp only [List.length_take, List.length_drop]; omega

/-- The body of an APPROX token decodes to its parts. -/
theorem decodeApproxBody_append {len : Nat} (a : RefAddr) {bm ps : List Byte} (rest : List Byte)
    (hb : bm.length = ceil8 len) (hp : ps.length = popcounts bm) :
    decodeApproxBody len a (bm ++ ps ++ rest) = .ok (.approxMatch len a bm ps, rest) := by
  have htake : (bm ++ ps ++ rest).take (ceil8 len) = bm := by
    rw [List.append_assoc, ← hb, List.take_left]
  have hdrop : (bm ++ ps ++ rest).drop (ceil8 len) = ps ++ rest := by
    rw [List.append_assoc, ← hb, List.drop_left]
  simp only [decodeApproxBody, htake, hdrop, ← List.drop_drop]
  rw [← hp, List.take_left, List.drop_left, if_neg (by simp [hb, hp])]

end Sys2Proof
end

