-- ==== Sys2Proof/Laws/Memory.lean ====
section
/-! SUPPORT. The laws of the sparse memory: read after write, and the canonical form. -/

namespace Sys2Proof.Machine

open Sys2Proof

variable {w : Nat}

@[simp] theorem Memory.read_nil (a : Nat) : Memory.read ([] : Memory w) a = none := rfl

/-- A read after one write: the value written there, the old entry elsewhere. -/
theorem Memory.read_write (m : Memory w) (a b : Nat) (v : BitVec w) :
    Memory.read (Memory.write m a v) b = if a = b then some v else Memory.read m b := by
  induction m with
  | nil => simp [Memory.write, Memory.read]
  | cons c rest ih =>
    obtain ⟨k, x⟩ := c
    simp only [Memory.write]
    split
    · simp only [Memory.read]
    · split
      · next h => subst h; by_cases hb : a = b <;> simp [Memory.read, hb]
      · next hk =>
        simp only [Memory.read, ih]
        by_cases hb : a = b
        · subst hb; simp [Ne.symm hk]
        · simp [hb]

@[simp] theorem Memory.read_write_same (m : Memory w) (a : Nat) (v : BitVec w) :
    Memory.read (Memory.write m a v) a = some v := by simp [Memory.read_write]

theorem Memory.read_write_other (m : Memory w) {a b : Nat} (v : BitVec w) (h : a ≠ b) :
    Memory.read (Memory.write m a v) b = Memory.read m b := by simp [Memory.read_write, h]

/-- A read after consecutive writes from `a`: the bytes written inside, the old entry outside. -/
theorem Memory.read_writeAll (m : Memory w) (a b : Nat) (vs : List (BitVec w)) :
    Memory.read (Memory.writeAll m a vs) b =
      if a ≤ b ∧ b < a + vs.length then vs[b - a]? else Memory.read m b := by
  induction vs generalizing m a with
  | nil => simp [Memory.writeAll]
  | cons v vs ih =>
    simp only [Memory.writeAll, ih, Memory.read_write, List.length_cons]
    by_cases hab : a = b
    · subst hab; simp
    · by_cases h : a + 1 ≤ b ∧ b < a + 1 + vs.length
      · rw [if_pos h, if_pos (by omega), show b - a = (b - (a + 1)) + 1 by omega,
          List.getElem?_cons_succ]
      · rw [if_neg h, if_neg hab, if_neg (by omega)]

theorem Memory.read_writeAll_outside (m : Memory w) {a b : Nat} (vs : List (BitVec w))
    (h : b < a ∨ a + vs.length ≤ b) :
    Memory.read (Memory.writeAll m a vs) b = Memory.read m b := by
  rw [Memory.read_writeAll, if_neg (by omega)]

/-- A write keeps the strict rise of the indices. -/
theorem Memory.risingFrom_write (m : Memory w) {lo a : Nat} (v : BitVec w)
    (h : Memory.risingFrom lo m = true) (ha : lo ≤ a) :
    Memory.risingFrom lo (Memory.write m a v) = true := by
  induction m generalizing lo with
  | nil => simp [Memory.write, Memory.risingFrom, ha]
  | cons c rest ih =>
    obtain ⟨k, x⟩ := c
    simp only [Memory.risingFrom, Bool.and_eq_true, decide_eq_true_eq] at h
    simp only [Memory.write]
    split
    · next hk => simp [Memory.risingFrom, ha, h.2]; omega
    · split
      · next hk => subst hk; simp [Memory.risingFrom, ha, h.2]
      · next h1 h2 =>
        simp only [Memory.risingFrom, Bool.and_eq_true, decide_eq_true_eq]
        exact ⟨h.1, ih h.2 (by omega)⟩

/-- A write keeps the canonical form. -/
@[simp] theorem Memory.wf_write (m : Memory w) (a : Nat) (v : BitVec w)
    (h : Memory.wf m = true) : Memory.wf (Memory.write m a v) = true :=
  Memory.risingFrom_write m v h (Nat.zero_le a)

/-- Consecutive writes keep the canonical form. -/
@[simp] theorem Memory.wf_writeAll (m : Memory w) (a : Nat) (vs : List (BitVec w))
    (h : Memory.wf m = true) : Memory.wf (Memory.writeAll m a vs) = true := by
  induction vs generalizing m a with
  | nil => exact h
  | cons v vs ih => exact ih _ _ (Memory.wf_write m a v h)

/-- The memory after reset has the canonical form. -/
@[simp] theorem Memory.wf_nil : Memory.wf ([] : Memory w) = true := rfl

@[simp] theorem Memory.below_nil (bound : Nat) : Memory.below bound ([] : Memory w) = true := rfl

/-- A write below the bound keeps every index below it. -/
theorem Memory.below_write (m : Memory w) {bound a : Nat} (v : BitVec w)
    (h : Memory.below bound m = true) (ha : a < bound) :
    Memory.below bound (Memory.write m a v) = true := by
  induction m with
  | nil => simp [Memory.write, Memory.below, ha]
  | cons c rest ih =>
    obtain ⟨k, x⟩ := c
    simp only [Memory.below, List.all_cons, Bool.and_eq_true, decide_eq_true_eq] at h ih ⊢
    simp only [Memory.write]
    split
    · simp [ha, h.1]; simpa using h.2
    · split
      · simp [ha]; simpa using h.2
      · simp only [List.all_cons, Bool.and_eq_true, decide_eq_true_eq]
        exact ⟨h.1, ih h.2⟩

/-- Consecutive writes below the bound keep every index below it. -/
theorem Memory.below_writeAll (m : Memory w) {bound a : Nat} (vs : List (BitVec w))
    (h : Memory.below bound m = true) (ha : a + vs.length ≤ bound) :
    Memory.below bound (Memory.writeAll m a vs) = true := by
  induction vs generalizing m a with
  | nil => exact h
  | cons v vs ih =>
    simp only [List.length_cons] at ha
    exact ih _ (Memory.below_write m v h (by omega)) (by omega)

/-- Where nothing below `lo` is listed, reading there gives nothing. -/
theorem Memory.read_of_lt (m : Memory w) {lo a : Nat} (h : Memory.risingFrom lo m = true)
    (ha : a < lo) : Memory.read m a = none := by
  induction m generalizing lo with
  | nil => rfl
  | cons c rest ih =>
    obtain ⟨k, x⟩ := c
    simp only [Memory.risingFrom, Bool.and_eq_true, decide_eq_true_eq] at h
    rw [Memory.read, if_neg (by omega)]
    exact ih h.2 (by omega)

/-- Two memories in canonical form that read alike everywhere are the same data. -/
theorem Memory.ext_of_risingFrom (m m' : Memory w) {lo : Nat}
    (h : Memory.risingFrom lo m = true) (h' : Memory.risingFrom lo m' = true)
    (hr : ∀ a, Memory.read m a = Memory.read m' a) : m = m' := by
  induction m generalizing lo m' with
  | nil =>
    cases m' with
    | nil => rfl
    | cons c rest => obtain ⟨k, x⟩ := c; have := hr k; simp [Memory.read] at this
  | cons c rest ih =>
    obtain ⟨k, x⟩ := c
    cases m' with
    | nil => have := hr k; simp [Memory.read] at this
    | cons c' rest' =>
      obtain ⟨k', x'⟩ := c'
      simp only [Memory.risingFrom, Bool.and_eq_true, decide_eq_true_eq] at h h'
      have hk : k = k' := by
        rcases Nat.lt_trichotomy k k' with hlt | heq | hgt
        · have := hr k
          simp only [Memory.read, if_pos] at this
          rw [if_neg (by omega), Memory.read_of_lt rest' h'.2 (by omega)] at this
          cases this
        · exact heq
        · have := hr k'
          simp only [Memory.read, if_pos] at this
          rw [if_neg (by omega), Memory.read_of_lt rest h.2 (by omega)] at this
          cases this
      subst hk
      have hx : x = x' := by simpa [Memory.read] using hr k
      subst hx
      congr 1
      refine ih rest' h.2 h'.2 (fun a => ?_)
      by_cases ha : k = a
      · subst ha
        rw [Memory.read_of_lt rest h.2 (by omega), Memory.read_of_lt rest' h'.2 (by omega)]
      · simpa [Memory.read, ha] using hr a

/-- Equal memories are equal data. -/
theorem Memory.ext_of_wf (m m' : Memory w) (h : Memory.wf m = true) (h' : Memory.wf m' = true)
    (hr : ∀ a, Memory.read m a = Memory.read m' a) : m = m' :=
  Memory.ext_of_risingFrom m m' h h' hr

end Sys2Proof.Machine
end

