-- ==== Sys2Proof/Laws/State.lean ====
section
/-! SUPPORT. One lemma per field per update of the state, true by rfl, so that no proof unfolds a
record update. A part of the state (block, consumer, host, counter) an update does not touch has
one lemma for the whole part. -/

namespace Sys2Proof.Machine

open Sys2Proof

@[simp] theorem State.refresh_block (s : State) :
    (s.refresh).block = s.block := rfl
@[simp] theorem State.refresh_cons (s : State) :
    (s.refresh).cons = s.cons := rfl
@[simp] theorem State.refresh_host (s : State) :
    (s.refresh).host = s.host := rfl
@[simp] theorem State.refresh_fresh (s : State) :
    (s.refresh).fresh = s.fresh + 1 := rfl

@[simp] theorem State.raise_cfgRange_block_phase (s : State) :
    (s.raise .cfgRange).block.phase = s.block.phase := rfl
@[simp] theorem State.raise_cfgRange_block_cur (s : State) :
    (s.raise .cfgRange).block.cur = s.block.cur := rfl
@[simp] theorem State.raise_cfgRange_block_nlen (s : State) :
    (s.raise .cfgRange).block.nlen = s.block.nlen := rfl
@[simp] theorem State.raise_cfgRange_block_errCfg (s : State) :
    (s.raise .cfgRange).block.errCfg = true := rfl
@[simp] theorem State.raise_cfgRange_block_errBusyWr (s : State) :
    (s.raise .cfgRange).block.errBusyWr = s.block.errBusyWr := rfl
@[simp] theorem State.raise_cfgRange_block_ref (s : State) :
    (s.raise .cfgRange).block.ref = s.block.ref := rfl
@[simp] theorem State.raise_cfgRange_block_tgt (s : State) :
    (s.raise .cfgRange).block.tgt = s.block.tgt := rfl
@[simp] theorem State.raise_cfgRange_block_cost (s : State) :
    (s.raise .cfgRange).block.cost = s.block.cost := rfl
@[simp] theorem State.raise_cfgRange_block_trans (s : State) :
    (s.raise .cfgRange).block.trans = s.block.trans := rfl
@[simp] theorem State.raise_cfgRange_block_toklen (s : State) :
    (s.raise .cfgRange).block.toklen = s.block.toklen := rfl
@[simp] theorem State.raise_cfgRange_block_tok (s : State) :
    (s.raise .cfgRange).block.tok = s.block.tok := rfl
@[simp] theorem State.raise_cfgRange_block_work (s : State) :
    (s.raise .cfgRange).block.work = s.block.work := rfl
@[simp] theorem State.raise_cfgRange_cons (s : State) :
    (s.raise .cfgRange).cons = s.cons := rfl
@[simp] theorem State.raise_cfgRange_host (s : State) :
    (s.raise .cfgRange).host = s.host := rfl
@[simp] theorem State.raise_cfgRange_fresh (s : State) :
    (s.raise .cfgRange).fresh = s.fresh := rfl

@[simp] theorem State.raise_busyWrite_block_phase (s : State) :
    (s.raise .busyWrite).block.phase = s.block.phase := rfl
@[simp] theorem State.raise_busyWrite_block_cur (s : State) :
    (s.raise .busyWrite).block.cur = s.block.cur := rfl
@[simp] theorem State.raise_busyWrite_block_nlen (s : State) :
    (s.raise .busyWrite).block.nlen = s.block.nlen := rfl
@[simp] theorem State.raise_busyWrite_block_errCfg (s : State) :
    (s.raise .busyWrite).block.errCfg = s.block.errCfg := rfl
@[simp] theorem State.raise_busyWrite_block_errBusyWr (s : State) :
    (s.raise .busyWrite).block.errBusyWr = true := rfl
@[simp] theorem State.raise_busyWrite_block_ref (s : State) :
    (s.raise .busyWrite).block.ref = s.block.ref := rfl
@[simp] theorem State.raise_busyWrite_block_tgt (s : State) :
    (s.raise .busyWrite).block.tgt = s.block.tgt := rfl
@[simp] theorem State.raise_busyWrite_block_cost (s : State) :
    (s.raise .busyWrite).block.cost = s.block.cost := rfl
@[simp] theorem State.raise_busyWrite_block_trans (s : State) :
    (s.raise .busyWrite).block.trans = s.block.trans := rfl
@[simp] theorem State.raise_busyWrite_block_toklen (s : State) :
    (s.raise .busyWrite).block.toklen = s.block.toklen := rfl
@[simp] theorem State.raise_busyWrite_block_tok (s : State) :
    (s.raise .busyWrite).block.tok = s.block.tok := rfl
@[simp] theorem State.raise_busyWrite_block_work (s : State) :
    (s.raise .busyWrite).block.work = s.block.work := rfl
@[simp] theorem State.raise_busyWrite_cons (s : State) :
    (s.raise .busyWrite).cons = s.cons := rfl
@[simp] theorem State.raise_busyWrite_host (s : State) :
    (s.raise .busyWrite).host = s.host := rfl
@[simp] theorem State.raise_busyWrite_fresh (s : State) :
    (s.raise .busyWrite).fresh = s.fresh := rfl

@[simp] theorem State.setPhase_block_phase (s : State) (p : Phase) :
    (s.setPhase p).block.phase = p := rfl
@[simp] theorem State.setPhase_block_cur (s : State) (p : Phase) :
    (s.setPhase p).block.cur = s.block.cur := rfl
@[simp] theorem State.setPhase_block_nlen (s : State) (p : Phase) :
    (s.setPhase p).block.nlen = s.block.nlen := rfl
@[simp] theorem State.setPhase_block_errCfg (s : State) (p : Phase) :
    (s.setPhase p).block.errCfg = s.block.errCfg := rfl
@[simp] theorem State.setPhase_block_errBusyWr (s : State) (p : Phase) :
    (s.setPhase p).block.errBusyWr = s.block.errBusyWr := rfl
@[simp] theorem State.setPhase_block_ref (s : State) (p : Phase) :
    (s.setPhase p).block.ref = s.block.ref := rfl
@[simp] theorem State.setPhase_block_tgt (s : State) (p : Phase) :
    (s.setPhase p).block.tgt = s.block.tgt := rfl
@[simp] theorem State.setPhase_block_cost (s : State) (p : Phase) :
    (s.setPhase p).block.cost = s.block.cost := rfl
@[simp] theorem State.setPhase_block_trans (s : State) (p : Phase) :
    (s.setPhase p).block.trans = s.block.trans := rfl
@[simp] theorem State.setPhase_block_toklen (s : State) (p : Phase) :
    (s.setPhase p).block.toklen = s.block.toklen := rfl
@[simp] theorem State.setPhase_block_tok (s : State) (p : Phase) :
    (s.setPhase p).block.tok = s.block.tok := rfl
@[simp] theorem State.setPhase_block_work (s : State) (p : Phase) :
    (s.setPhase p).block.work = s.block.work := rfl
@[simp] theorem State.setPhase_cons (s : State) (p : Phase) :
    (s.setPhase p).cons = s.cons := rfl
@[simp] theorem State.setPhase_host (s : State) (p : Phase) :
    (s.setPhase p).host = s.host := rfl
@[simp] theorem State.setPhase_fresh (s : State) (p : Phase) :
    (s.setPhase p).fresh = s.fresh := rfl

@[simp] theorem State.cbInit_block_phase (s : State) :
    (s.cbInit).block.phase = s.block.phase := rfl
@[simp] theorem State.cbInit_block_cur (s : State) :
    (s.cbInit).block.cur = s.block.nlen := rfl
@[simp] theorem State.cbInit_block_nlen (s : State) :
    (s.cbInit).block.nlen = s.block.nlen := rfl
@[simp] theorem State.cbInit_block_errCfg (s : State) :
    (s.cbInit).block.errCfg = s.block.errCfg := rfl
@[simp] theorem State.cbInit_block_errBusyWr (s : State) :
    (s.cbInit).block.errBusyWr = s.block.errBusyWr := rfl
@[simp] theorem State.cbInit_block_ref (s : State) :
    (s.cbInit).block.ref = s.block.ref := rfl
@[simp] theorem State.cbInit_block_tgt (s : State) :
    (s.cbInit).block.tgt = s.block.tgt := rfl
@[simp] theorem State.cbInit_block_cost (s : State) :
    (s.cbInit).block.cost = Memory.write s.block.cost s.n (BitVec.ofNat 32 Config.COST_END) := rfl
@[simp] theorem State.cbInit_block_trans (s : State) :
    (s.cbInit).block.trans = s.block.trans := rfl
@[simp] theorem State.cbInit_block_toklen (s : State) :
    (s.cbInit).block.toklen = s.block.toklen := rfl
@[simp] theorem State.cbInit_block_tok (s : State) :
    (s.cbInit).block.tok = s.block.tok := rfl
@[simp] theorem State.cbInit_block_work (s : State) :
    (s.cbInit).block.work = s.block.work := rfl
@[simp] theorem State.cbInit_cons (s : State) :
    (s.cbInit).cons = s.cons := rfl
@[simp] theorem State.cbInit_host (s : State) :
    (s.cbInit).host = s.host := rfl
@[simp] theorem State.cbInit_fresh (s : State) :
    (s.cbInit).fresh = s.fresh := rfl

@[simp] theorem State.cbCommit_block_phase (s : State) (w : Work) :
    (s.cbCommit w).block.phase = s.block.phase := rfl
@[simp] theorem State.cbCommit_block_cur (s : State) (w : Work) :
    (s.cbCommit w).block.cur = w.i := rfl
@[simp] theorem State.cbCommit_block_nlen (s : State) (w : Work) :
    (s.cbCommit w).block.nlen = s.block.nlen := rfl
@[simp] theorem State.cbCommit_block_errCfg (s : State) (w : Work) :
    (s.cbCommit w).block.errCfg = s.block.errCfg := rfl
@[simp] theorem State.cbCommit_block_errBusyWr (s : State) (w : Work) :
    (s.cbCommit w).block.errBusyWr = s.block.errBusyWr := rfl
@[simp] theorem State.cbCommit_block_ref (s : State) (w : Work) :
    (s.cbCommit w).block.ref = s.block.ref := rfl
@[simp] theorem State.cbCommit_block_tgt (s : State) (w : Work) :
    (s.cbCommit w).block.tgt = s.block.tgt := rfl
@[simp] theorem State.cbCommit_block_cost (s : State) (w : Work) :
    (s.cbCommit w).block.cost = Memory.write s.block.cost w.i.toNat w.c := rfl
@[simp] theorem State.cbCommit_block_trans (s : State) (w : Work) :
    (s.cbCommit w).block.trans = Memory.write s.block.trans w.i.toNat w.t := rfl
@[simp] theorem State.cbCommit_block_toklen (s : State) (w : Work) :
    (s.cbCommit w).block.toklen = Memory.write s.block.toklen w.i.toNat w.tl := rfl
@[simp] theorem State.cbCommit_block_tok (s : State) (w : Work) :
    (s.cbCommit w).block.tok = Memory.writeAll s.block.tok (tokKey w.i.toNat 0) (w.tb.take w.tl.toNat) := rfl
@[simp] theorem State.cbCommit_block_work (s : State) (w : Work) :
    (s.cbCommit w).block.work = s.unspecifiedWork := rfl
@[simp] theorem State.cbCommit_cons (s : State) (w : Work) :
    (s.cbCommit w).cons = s.cons := rfl
@[simp] theorem State.cbCommit_host (s : State) (w : Work) :
    (s.cbCommit w).host = s.host := rfl
@[simp] theorem State.cbCommit_fresh (s : State) (w : Work) :
    (s.cbCommit w).fresh = s.fresh + 1 := rfl

@[simp] theorem State.resetBlock_block_phase (s : State) :
    (s.resetBlock).block.phase = .idle := rfl
@[simp] theorem State.resetBlock_block_cur (s : State) :
    (s.resetBlock).block.cur = 0 := rfl
@[simp] theorem State.resetBlock_block_nlen (s : State) :
    (s.resetBlock).block.nlen = 0 := rfl
@[simp] theorem State.resetBlock_block_errCfg (s : State) :
    (s.resetBlock).block.errCfg = false := rfl
@[simp] theorem State.resetBlock_block_errBusyWr (s : State) :
    (s.resetBlock).block.errBusyWr = false := rfl
@[simp] theorem State.resetBlock_block_ref (s : State) :
    (s.resetBlock).block.ref = [] := rfl
@[simp] theorem State.resetBlock_block_tgt (s : State) :
    (s.resetBlock).block.tgt = [] := rfl
@[simp] theorem State.resetBlock_block_cost (s : State) :
    (s.resetBlock).block.cost = [] := rfl
@[simp] theorem State.resetBlock_block_trans (s : State) :
    (s.resetBlock).block.trans = [] := rfl
@[simp] theorem State.resetBlock_block_toklen (s : State) :
    (s.resetBlock).block.toklen = [] := rfl
@[simp] theorem State.resetBlock_block_tok (s : State) :
    (s.resetBlock).block.tok = [] := rfl
@[simp] theorem State.resetBlock_block_work (s : State) :
    (s.resetBlock).block.work = s.unspecifiedWork := rfl
@[simp] theorem State.resetBlock_cons (s : State) :
    (s.resetBlock).cons = s.cons := rfl
@[simp] theorem State.resetBlock_host (s : State) :
    (s.resetBlock).host = s.host := rfl
@[simp] theorem State.resetBlock_fresh (s : State) :
    (s.resetBlock).fresh = s.fresh + 1 := rfl

@[simp] theorem State.writeRef_block_phase (s : State) (a : Nat) (b : Byte) :
    (s.writeRef a b).block.phase = .idle := rfl
@[simp] theorem State.writeRef_block_cur (s : State) (a : Nat) (b : Byte) :
    (s.writeRef a b).block.cur = s.block.cur := rfl
@[simp] theorem State.writeRef_block_nlen (s : State) (a : Nat) (b : Byte) :
    (s.writeRef a b).block.nlen = s.block.nlen := rfl
@[simp] theorem State.writeRef_block_errCfg (s : State) (a : Nat) (b : Byte) :
    (s.writeRef a b).block.errCfg = s.block.errCfg := rfl
@[simp] theorem State.writeRef_block_errBusyWr (s : State) (a : Nat) (b : Byte) :
    (s.writeRef a b).block.errBusyWr = s.block.errBusyWr := rfl
@[simp] theorem State.writeRef_block_ref (s : State) (a : Nat) (b : Byte) :
    (s.writeRef a b).block.ref = Memory.write s.block.ref a b := rfl
@[simp] theorem State.writeRef_block_tgt (s : State) (a : Nat) (b : Byte) :
    (s.writeRef a b).block.tgt = s.block.tgt := rfl
@[simp] theorem State.writeRef_block_cost (s : State) (a : Nat) (b : Byte) :
    (s.writeRef a b).block.cost = s.block.cost := rfl
@[simp] theorem State.writeRef_block_trans (s : State) (a : Nat) (b : Byte) :
    (s.writeRef a b).block.trans = s.block.trans := rfl
@[simp] theorem State.writeRef_block_toklen (s : State) (a : Nat) (b : Byte) :
    (s.writeRef a b).block.toklen = s.block.toklen := rfl
@[simp] theorem State.writeRef_block_tok (s : State) (a : Nat) (b : Byte) :
    (s.writeRef a b).block.tok = s.block.tok := rfl
@[simp] theorem State.writeRef_block_work (s : State) (a : Nat) (b : Byte) :
    (s.writeRef a b).block.work = s.block.work := rfl
@[simp] theorem State.writeRef_cons (s : State) (a : Nat) (b : Byte) :
    (s.writeRef a b).cons = s.cons := rfl
@[simp] theorem State.writeRef_host (s : State) (a : Nat) (b : Byte) :
    (s.writeRef a b).host = s.host := rfl
@[simp] theorem State.writeRef_fresh (s : State) (a : Nat) (b : Byte) :
    (s.writeRef a b).fresh = s.fresh := rfl

@[simp] theorem State.writeTgt_block_phase (s : State) (a : Nat) (b : Byte) :
    (s.writeTgt a b).block.phase = .idle := rfl
@[simp] theorem State.writeTgt_block_cur (s : State) (a : Nat) (b : Byte) :
    (s.writeTgt a b).block.cur = s.block.cur := rfl
@[simp] theorem State.writeTgt_block_nlen (s : State) (a : Nat) (b : Byte) :
    (s.writeTgt a b).block.nlen = s.block.nlen := rfl
@[simp] theorem State.writeTgt_block_errCfg (s : State) (a : Nat) (b : Byte) :
    (s.writeTgt a b).block.errCfg = s.block.errCfg := rfl
@[simp] theorem State.writeTgt_block_errBusyWr (s : State) (a : Nat) (b : Byte) :
    (s.writeTgt a b).block.errBusyWr = s.block.errBusyWr := rfl
@[simp] theorem State.writeTgt_block_ref (s : State) (a : Nat) (b : Byte) :
    (s.writeTgt a b).block.ref = s.block.ref := rfl
@[simp] theorem State.writeTgt_block_tgt (s : State) (a : Nat) (b : Byte) :
    (s.writeTgt a b).block.tgt = Memory.write s.block.tgt a b := rfl
@[simp] theorem State.writeTgt_block_cost (s : State) (a : Nat) (b : Byte) :
    (s.writeTgt a b).block.cost = s.block.cost := rfl
@[simp] theorem State.writeTgt_block_trans (s : State) (a : Nat) (b : Byte) :
    (s.writeTgt a b).block.trans = s.block.trans := rfl
@[simp] theorem State.writeTgt_block_toklen (s : State) (a : Nat) (b : Byte) :
    (s.writeTgt a b).block.toklen = s.block.toklen := rfl
@[simp] theorem State.writeTgt_block_tok (s : State) (a : Nat) (b : Byte) :
    (s.writeTgt a b).block.tok = s.block.tok := rfl
@[simp] theorem State.writeTgt_block_work (s : State) (a : Nat) (b : Byte) :
    (s.writeTgt a b).block.work = s.block.work := rfl
@[simp] theorem State.writeTgt_cons (s : State) (a : Nat) (b : Byte) :
    (s.writeTgt a b).cons = s.cons := rfl
@[simp] theorem State.writeTgt_host (s : State) (a : Nat) (b : Byte) :
    (s.writeTgt a b).host = s.host := rfl
@[simp] theorem State.writeTgt_fresh (s : State) (a : Nat) (b : Byte) :
    (s.writeTgt a b).fresh = s.fresh := rfl

@[simp] theorem State.writeNlen_block_phase (s : State) (v : Word) :
    (s.writeNlen v).block.phase = .idle := rfl
@[simp] theorem State.writeNlen_block_cur (s : State) (v : Word) :
    (s.writeNlen v).block.cur = s.block.cur := rfl
@[simp] theorem State.writeNlen_block_nlen (s : State) (v : Word) :
    (s.writeNlen v).block.nlen = v.setWidth 18 := rfl
@[simp] theorem State.writeNlen_block_errCfg (s : State) (v : Word) :
    (s.writeNlen v).block.errCfg = s.block.errCfg := rfl
@[simp] theorem State.writeNlen_block_errBusyWr (s : State) (v : Word) :
    (s.writeNlen v).block.errBusyWr = s.block.errBusyWr := rfl
@[simp] theorem State.writeNlen_block_ref (s : State) (v : Word) :
    (s.writeNlen v).block.ref = s.block.ref := rfl
@[simp] theorem State.writeNlen_block_tgt (s : State) (v : Word) :
    (s.writeNlen v).block.tgt = s.block.tgt := rfl
@[simp] theorem State.writeNlen_block_cost (s : State) (v : Word) :
    (s.writeNlen v).block.cost = s.block.cost := rfl
@[simp] theorem State.writeNlen_block_trans (s : State) (v : Word) :
    (s.writeNlen v).block.trans = s.block.trans := rfl
@[simp] theorem State.writeNlen_block_toklen (s : State) (v : Word) :
    (s.writeNlen v).block.toklen = s.block.toklen := rfl
@[simp] theorem State.writeNlen_block_tok (s : State) (v : Word) :
    (s.writeNlen v).block.tok = s.block.tok := rfl
@[simp] theorem State.writeNlen_block_work (s : State) (v : Word) :
    (s.writeNlen v).block.work = s.block.work := rfl
@[simp] theorem State.writeNlen_cons (s : State) (v : Word) :
    (s.writeNlen v).cons = s.cons := rfl
@[simp] theorem State.writeNlen_host (s : State) (v : Word) :
    (s.writeNlen v).host = s.host := rfl
@[simp] theorem State.writeNlen_fresh (s : State) (v : Word) :
    (s.writeNlen v).fresh = s.fresh := rfl

@[simp] theorem State.emit_block (s : State) (bytes : List Byte) :
    (s.emit bytes).block = s.block := rfl
@[simp] theorem State.emit_cons_ref (s : State) (bytes : List Byte) :
    (s.emit bytes).cons.ref = s.cons.ref := rfl
@[simp] theorem State.emit_cons_n (s : State) (bytes : List Byte) :
    (s.emit bytes).cons.n = s.cons.n := rfl
@[simp] theorem State.emit_cons_stream (s : State) (bytes : List Byte) :
    (s.emit bytes).cons.stream = s.cons.stream := rfl
@[simp] theorem State.emit_cons_out (s : State) (bytes : List Byte) :
    (s.emit bytes).cons.out = Memory.writeAll s.cons.out s.cons.o bytes := rfl
@[simp] theorem State.emit_cons_o (s : State) (bytes : List Byte) :
    (s.emit bytes).cons.o = s.cons.o + bytes.length := rfl
@[simp] theorem State.emit_cons_verdict (s : State) (bytes : List Byte) :
    (s.emit bytes).cons.verdict = s.cons.verdict := rfl
@[simp] theorem State.emit_host (s : State) (bytes : List Byte) :
    (s.emit bytes).host = s.host := rfl
@[simp] theorem State.emit_fresh (s : State) (bytes : List Byte) :
    (s.emit bytes).fresh = s.fresh := rfl

@[simp] theorem State.setVerdict_block (s : State) (v : Verdict) :
    (s.setVerdict v).block = s.block := rfl
@[simp] theorem State.setVerdict_cons_ref (s : State) (v : Verdict) :
    (s.setVerdict v).cons.ref = s.cons.ref := rfl
@[simp] theorem State.setVerdict_cons_n (s : State) (v : Verdict) :
    (s.setVerdict v).cons.n = s.cons.n := rfl
@[simp] theorem State.setVerdict_cons_stream (s : State) (v : Verdict) :
    (s.setVerdict v).cons.stream = s.cons.stream := rfl
@[simp] theorem State.setVerdict_cons_out (s : State) (v : Verdict) :
    (s.setVerdict v).cons.out = s.cons.out := rfl
@[simp] theorem State.setVerdict_cons_o (s : State) (v : Verdict) :
    (s.setVerdict v).cons.o = s.cons.o := rfl
@[simp] theorem State.setVerdict_cons_verdict (s : State) (v : Verdict) :
    (s.setVerdict v).cons.verdict = v := rfl
@[simp] theorem State.setVerdict_host (s : State) (v : Verdict) :
    (s.setVerdict v).host = s.host := rfl
@[simp] theorem State.setVerdict_fresh (s : State) (v : Verdict) :
    (s.setVerdict v).fresh = s.fresh := rfl

@[simp] theorem State.reject_block (s : State) (why : Reject) :
    (s.reject why).block = s.block := rfl
@[simp] theorem State.reject_cons_ref (s : State) (why : Reject) :
    (s.reject why).cons.ref = s.cons.ref := rfl
@[simp] theorem State.reject_cons_n (s : State) (why : Reject) :
    (s.reject why).cons.n = s.cons.n := rfl
@[simp] theorem State.reject_cons_stream (s : State) (why : Reject) :
    (s.reject why).cons.stream = s.cons.stream := rfl
@[simp] theorem State.reject_cons_out (s : State) (why : Reject) :
    (s.reject why).cons.out = s.cons.out := rfl
@[simp] theorem State.reject_cons_o (s : State) (why : Reject) :
    (s.reject why).cons.o = s.cons.o := rfl
@[simp] theorem State.reject_cons_verdict (s : State) (why : Reject) :
    (s.reject why).cons.verdict = .failed why := rfl
@[simp] theorem State.reject_host (s : State) (why : Reject) :
    (s.reject why).host = s.host := rfl
@[simp] theorem State.reject_fresh (s : State) (why : Reject) :
    (s.reject why).fresh = s.fresh := rfl

@[simp] theorem State.beginDecode_block (s : State) (ref : Memory 8) (n : Nat) (stream : List Byte) :
    (s.beginDecode ref n stream).block = s.block := rfl
@[simp] theorem State.beginDecode_cons_ref (s : State) (ref : Memory 8) (n : Nat) (stream : List Byte) :
    (s.beginDecode ref n stream).cons.ref = ref := rfl
@[simp] theorem State.beginDecode_cons_n (s : State) (ref : Memory 8) (n : Nat) (stream : List Byte) :
    (s.beginDecode ref n stream).cons.n = n := rfl
@[simp] theorem State.beginDecode_cons_stream (s : State) (ref : Memory 8) (n : Nat) (stream : List Byte) :
    (s.beginDecode ref n stream).cons.stream = stream := rfl
@[simp] theorem State.beginDecode_cons_out (s : State) (ref : Memory 8) (n : Nat) (stream : List Byte) :
    (s.beginDecode ref n stream).cons.out = [] := rfl
@[simp] theorem State.beginDecode_cons_o (s : State) (ref : Memory 8) (n : Nat) (stream : List Byte) :
    (s.beginDecode ref n stream).cons.o = 0 := rfl
@[simp] theorem State.beginDecode_cons_verdict (s : State) (ref : Memory 8) (n : Nat) (stream : List Byte) :
    (s.beginDecode ref n stream).cons.verdict = .decoding := rfl
@[simp] theorem State.beginDecode_host (s : State) (ref : Memory 8) (n : Nat) (stream : List Byte) :
    (s.beginDecode ref n stream).host = s.host := rfl
@[simp] theorem State.beginDecode_fresh (s : State) (ref : Memory 8) (n : Nat) (stream : List Byte) :
    (s.beginDecode ref n stream).fresh = s.fresh := rfl

@[simp] theorem State.setStream_block (s : State) (rest : List Byte) :
    (s.setStream rest).block = s.block := rfl
@[simp] theorem State.setStream_cons_ref (s : State) (rest : List Byte) :
    (s.setStream rest).cons.ref = s.cons.ref := rfl
@[simp] theorem State.setStream_cons_n (s : State) (rest : List Byte) :
    (s.setStream rest).cons.n = s.cons.n := rfl
@[simp] theorem State.setStream_cons_stream (s : State) (rest : List Byte) :
    (s.setStream rest).cons.stream = rest := rfl
@[simp] theorem State.setStream_cons_out (s : State) (rest : List Byte) :
    (s.setStream rest).cons.out = s.cons.out := rfl
@[simp] theorem State.setStream_cons_o (s : State) (rest : List Byte) :
    (s.setStream rest).cons.o = s.cons.o := rfl
@[simp] theorem State.setStream_cons_verdict (s : State) (rest : List Byte) :
    (s.setStream rest).cons.verdict = s.cons.verdict := rfl
@[simp] theorem State.setStream_host (s : State) (rest : List Byte) :
    (s.setStream rest).host = s.host := rfl
@[simp] theorem State.setStream_fresh (s : State) (rest : List Byte) :
    (s.setStream rest).fresh = s.fresh := rfl

@[simp] theorem State.placeStream_block (s : State) (bytes : List Byte) :
    (s.placeStream bytes).block = s.block := rfl
@[simp] theorem State.placeStream_cons_ref (s : State) (bytes : List Byte) :
    (s.placeStream bytes).cons.ref = s.cons.ref := rfl
@[simp] theorem State.placeStream_cons_n (s : State) (bytes : List Byte) :
    (s.placeStream bytes).cons.n = Config.NMAX := rfl
@[simp] theorem State.placeStream_cons_stream (s : State) (bytes : List Byte) :
    (s.placeStream bytes).cons.stream = bytes := rfl
@[simp] theorem State.placeStream_cons_out (s : State) (bytes : List Byte) :
    (s.placeStream bytes).cons.out = s.cons.out := rfl
@[simp] theorem State.placeStream_cons_o (s : State) (bytes : List Byte) :
    (s.placeStream bytes).cons.o = s.cons.o := rfl
@[simp] theorem State.placeStream_cons_verdict (s : State) (bytes : List Byte) :
    (s.placeStream bytes).cons.verdict = .decoding := rfl
@[simp] theorem State.placeStream_host_inbox (s : State) (bytes : List Byte) :
    (s.placeStream bytes).host.inbox = [] := rfl
@[simp] theorem State.placeStream_host_rdata (s : State) (bytes : List Byte) :
    (s.placeStream bytes).host.rdata = s.host.rdata := rfl
@[simp] theorem State.placeStream_host_asm (s : State) (bytes : List Byte) :
    (s.placeStream bytes).host.asm = s.host.asm := rfl
@[simp] theorem State.placeStream_fresh (s : State) (bytes : List Byte) :
    (s.placeStream bytes).fresh = s.fresh := rfl

@[simp] theorem State.hostRead_block (s : State) (t : Target) :
    (s.hostRead t).block = s.block := rfl
@[simp] theorem State.hostRead_cons (s : State) (t : Target) :
    (s.hostRead t).cons = s.cons := rfl
@[simp] theorem State.hostRead_host_inbox (s : State) (t : Target) :
    (s.hostRead t).host.inbox = s.host.inbox := rfl
@[simp] theorem State.hostRead_host_rdata (s : State) (t : Target) :
    (s.hostRead t).host.rdata = s.hostReadValue t := rfl
@[simp] theorem State.hostRead_host_asm (s : State) (t : Target) :
    (s.hostRead t).host.asm = s.host.asm := rfl
@[simp] theorem State.hostRead_fresh (s : State) (t : Target) :
    (s.hostRead t).fresh = s.fresh + 1 := rfl

@[simp] theorem State.assemble_block (s : State) :
    (s.assemble).block = s.block := rfl
@[simp] theorem State.assemble_cons (s : State) :
    (s.assemble).cons = s.cons := rfl
@[simp] theorem State.assemble_host_inbox (s : State) :
    (s.assemble).host.inbox = s.host.inbox := rfl
@[simp] theorem State.assemble_host_rdata (s : State) :
    (s.assemble).host.rdata = s.host.rdata := rfl
@[simp] theorem State.assemble_host_asm (s : State) :
    (s.assemble).host.asm = s.walkResult := rfl
@[simp] theorem State.assemble_fresh (s : State) :
    (s.assemble).fresh = s.fresh + 1 := rfl

@[simp] theorem State.setInbox_block (s : State) (rest : List Event) :
    (s.setInbox rest).block = s.block := rfl
@[simp] theorem State.setInbox_cons (s : State) (rest : List Event) :
    (s.setInbox rest).cons = s.cons := rfl
@[simp] theorem State.setInbox_host_inbox (s : State) (rest : List Event) :
    (s.setInbox rest).host.inbox = rest := rfl
@[simp] theorem State.setInbox_host_rdata (s : State) (rest : List Event) :
    (s.setInbox rest).host.rdata = s.host.rdata := rfl
@[simp] theorem State.setInbox_host_asm (s : State) (rest : List Event) :
    (s.setInbox rest).host.asm = s.host.asm := rfl
@[simp] theorem State.setInbox_fresh (s : State) (rest : List Event) :
    (s.setInbox rest).fresh = s.fresh := rfl

end Sys2Proof.Machine
end

