-- ==== Sys2Proof/Laws/Consumer.lean ====
section
/-! SUPPORT. What the shared operations of the tokens can do: the window test, the copy, the
patching, and an inversion lemma for exec. -/

namespace Sys2Proof.Machine

open Sys2Proof

/-- The window test passes exactly when both windows stay inside `N`. -/
theorem windowFault_none {s : State} {len : Nat} {addr : RefAddr} :
    s.windowFault len addr = none ↔ s.cons.o + len ≤ s.cons.n ∧ addr.toNat + len ≤ s.cons.n := by
  simp only [State.windowFault]
  split
  · simp; omega
  · split <;> simp <;> omega

/-- Past the end of OUT the window test gives `overrun`, whatever the address. -/
theorem windowFault_overrun {s : State} {len : Nat} (addr : RefAddr)
    (h : s.cons.n < s.cons.o + len) : s.windowFault len addr = some .overrun := by
  simp [State.windowFault, h]

/-- Past the end of the reference buffer alone it gives `refWindow`. -/
theorem windowFault_refWindow {s : State} {len : Nat} {addr : RefAddr}
    (h : s.cons.o + len ≤ s.cons.n) (h' : s.cons.n < addr.toNat + len) :
    s.windowFault len addr = some .refWindow := by
  simp [State.windowFault, Nat.not_lt.2 h, h']

@[simp] theorem copied_length (s : State) (len : Nat) (addr : RefAddr) :
    (s.copied len addr).length = len := by simp [State.copied]

theorem copied_getElem? (s : State) (len : Nat) (addr : RefAddr) (p : Nat) (h : p < len) :
    (s.copied len addr)[p]? = some (s.consRefByte (addr.toNat + p)) := by
  simp [State.copied, h]

theorem countP_range_succ_left (f : Nat → Bool) (n : Nat) :
    (List.range (n + 1)).countP f = (f 0).toNat + (List.range n).countP (fun q => f (q + 1)) := by
  rw [List.range_succ_eq_map, List.countP_cons, List.countP_map]
  cases f 0 <;> simp [Nat.add_comm, Function.comp_def]

/-- What patching does: with exactly one patch byte per 1 bit in the window it succeeds, and at a
position whose bit is 1 the patch byte numbered by the 1 bits below it is xored in. -/
theorem applyPatches_eq_some (bm : List Byte) (p : Nat) (cs ps : List Byte)
    (h : ps.length = (List.range cs.length).countP (fun q => bitAt bm (p + q))) :
    ∃ r, applyPatches bm p cs ps = some r ∧ r.length = cs.length ∧
      ∀ q, q < cs.length → r[q]? = some (if bitAt bm (p + q)
        then cs.getD q 0 ^^^ ps.getD ((List.range q).countP (fun q => bitAt bm (p + q))) 0
        else cs.getD q 0) := by
  induction cs generalizing p ps with
  | nil =>
    have : ps = [] := by simpa using h
    subst this
    exact ⟨[], rfl, rfl, by simp⟩
  | cons c cs ih =>
    simp only [List.length_cons, countP_range_succ_left, Nat.add_zero] at h
    have hs : ∀ q, bitAt bm (p + (q + 1)) = bitAt bm (p + 1 + q) := fun q => by
      rw [Nat.add_assoc, Nat.add_comm 1 q]
    simp only [hs] at h
    cases hb : bitAt bm p with
    | true =>
      simp only [hb, Bool.toNat_true] at h
      obtain ⟨x, xs, rfl⟩ : ∃ x xs, ps = x :: xs := by
        cases ps with
        | nil => simp at h; omega
        | cons x xs => exact ⟨x, xs, rfl⟩
      simp only [List.length_cons] at h
      obtain ⟨r, hr, hl, hq⟩ := ih (p + 1) xs (by omega)
      refine ⟨(c ^^^ x) :: r, by simp [applyPatches, hb, hr], by simp [hl], ?_⟩
      intro q hlt
      cases q with
      | zero => simp [hb]
      | succ q =>
        simp only [List.length_cons] at hlt
        rw [List.getElem?_cons_succ, hq q (by omega), countP_range_succ_left]
        simp [hb, hs, Nat.add_comm 1]
    | false =>
      simp only [hb, Bool.toNat_false, Nat.zero_add] at h
      obtain ⟨r, hr, hl, hq⟩ := ih (p + 1) ps h
      refine ⟨c :: r, by simp [applyPatches, hb, hr], by simp [hl], ?_⟩
      intro q hlt
      cases q with
      | zero => simp [hb]
      | succ q =>
        simp only [List.length_cons] at hlt
        rw [List.getElem?_cons_succ, hq q (by omega), countP_range_succ_left]
        simp [hb, hs]

/-- Patching never changes the number of bytes. -/
theorem applyPatches_length {bm : List Byte} {p : Nat} {cs ps r : List Byte}
    (h : applyPatches bm p cs ps = some r) : r.length = cs.length := by
  induction cs generalizing p ps r with
  | nil => cases ps <;> simp_all [applyPatches]
  | cons c cs ih =>
    simp only [applyPatches] at h
    split at h
    · split at h
      · cases h
      · simp only [Option.map_eq_some_iff] at h
        obtain ⟨r', hr, rfl⟩ := h
        simp [ih hr]
    · simp only [Option.map_eq_some_iff] at h
      obtain ⟨r', hr, rfl⟩ := h
      simp [ih hr]

/-- The bit of a position in the first bitmap byte, and after it. -/
theorem bitAt_cons_lt (b : Byte) (bm : List Byte) {p : Nat} (h : p < 8) :
    bitAt (b :: bm) p = b.getLsbD p := by
  have h0 : p >>> 3 = 0 := by rw [Nat.shiftRight_eq_div_pow]; omega
  simp [bitAt, h0, Nat.mod_eq_of_lt h]

theorem bitAt_cons_add (b : Byte) (bm : List Byte) (p : Nat) :
    bitAt (b :: bm) (8 + p) = bitAt bm p := by
  have h : (8 + p) >>> 3 = (p >>> 3) + 1 := by simp only [Nat.shiftRight_eq_div_pow]; omega
  simp [bitAt, h]

/-- The 1 bits of a bitmap, counted by position (R64, R69). -/
theorem popcounts_eq_countP (bm : List Byte) :
    popcounts bm = (List.range (8 * bm.length)).countP (bitAt bm) := by
  induction bm with
  | nil => rfl
  | cons b bm ih =>
    rw [List.length_cons, Nat.mul_add, Nat.mul_one, Nat.add_comm, List.range_add,
      List.countP_append, List.countP_map]
    have h1 : (List.range 8).countP (bitAt (b :: bm)) = popcount b := by
      rw [popcount]
      exact List.countP_congr (fun q hq => by rw [bitAt_cons_lt b bm (List.mem_range.1 hq)])
    have h2 : (bitAt (b :: bm) ∘ fun x => 8 + x) = bitAt bm := by
      funext q; exact bitAt_cons_add b bm q
    rw [h1, h2, ← ih]
    simp [popcounts]

/-- With no 1 in an unused bit, the 1 bits are those of the window's positions. -/
theorem popcounts_of_no_padBits {len : Nat} {bm : List Byte} (hp : padBits len bm = false)
    (hl : len ≤ 8 * bm.length) : popcounts bm = (List.range len).countP (bitAt bm) := by
  rw [popcounts_eq_countP, show 8 * bm.length = len + (8 * bm.length - len) by omega,
    List.range_add, List.countP_append, List.countP_map]
  have : (List.range (8 * bm.length - len)).countP (bitAt bm ∘ fun x => len + x) = 0 := by
    rw [List.countP_eq_zero]
    simpa [padBits] using hp
  omega

/-- The one successful end of APPROX: under its conditions the patching succeeds. -/
theorem execApproxMatch_next {s : State} {len : Nat} {addr : RefAddr} {bm ps : List Byte}
    (hw : (Instr.approxMatch len addr bm ps).wellFormed = true) (hp : padBits len bm = false)
    (ho : s.cons.o + len ≤ s.cons.n) (ha : addr.toNat + len ≤ s.cons.n) :
    ∃ r, execApproxMatch len addr bm ps s = .next (s.emit r).refresh ∧ r.length = len ∧
      ∀ q, q < len → r[q]? = some (if bitAt bm q
        then s.consRefByte (addr.toNat + q) ^^^ ps.getD ((List.range q).countP (bitAt bm)) 0
        else s.consRefByte (addr.toNat + q)) := by
  obtain ⟨_, _, hb, hps⟩ := approx_wellFormed.1 hw
  have hlen : len ≤ 8 * bm.length := by rw [hb, ceil8_eq]; omega
  obtain ⟨r, hr, hl, hq⟩ := applyPatches_eq_some bm 0 (s.copied len addr) ps
    (by simp [hps, popcounts_of_no_padBits hp hlen])
  refine ⟨r, ?_, by simpa using hl, ?_⟩
  · simp [execApproxMatch, windowFault_none.2 ⟨ho, ha⟩, hp, hr]
  · intro q hlt
    rw [hq q (by simpa using hlt)]
    simp [List.getD, copied_getElem? s len addr q hlt]

/-- What a token can do to the state: it rejects, or it writes at `o` and stays inside OUT. -/
theorem exec_cases {i : Instr} {s t : State} (h : exec i s = .next t) :
    (∃ why, t = (s.reject why).refresh) ∨
    (∃ bytes, t = (s.emit bytes).refresh ∧ s.cons.o + bytes.length ≤ s.cons.n) := by
  cases i with
  | lit1 x =>
    simp only [exec, execLit1] at h
    split at h
    · next ho => cases h; exact .inr ⟨_, rfl, by simpa using ho⟩
    · cases h; exact .inl ⟨_, rfl⟩
  | lit2 x0 x1 => cases h; exact .inl ⟨_, rfl⟩
  | exactMatch len addr =>
    simp only [exec, execExactMatch] at h
    split at h
    · cases h; exact .inl ⟨_, rfl⟩
    · next hw => cases h; exact .inr ⟨_, rfl, by simpa using (windowFault_none.1 hw).1⟩
  | approxMatch len addr bm ps =>
    simp only [exec, execApproxMatch] at h
    split at h
    · cases h; exact .inl ⟨_, rfl⟩
    · next hw =>
      split at h
      · cases h; exact .inl ⟨_, rfl⟩
      · split at h
        · cases h; exact .inl ⟨_, rfl⟩
        · next r hr =>
          cases h
          refine .inr ⟨r, rfl, ?_⟩
          rw [applyPatches_length hr]
          simpa using (windowFault_none.1 hw).1

end Sys2Proof.Machine
end

