-- ==== Sys2Proof/Laws/Work.lean ====
section
/-! SUPPORT. The working registers under the operations of an offset step: loading a token,
adopting a candidate, and the numbers the registers hold. -/

namespace Sys2Proof.Machine

open Sys2Proof

/-- What holds at the start of a fold and is kept by each of its steps holds at its end. -/
theorem foldl_invariant {α β : Type} (P : β → Prop) (f : β → α → β) (l : List α) (b : β)
    (h0 : P b) (h : ∀ b, P b → ∀ a ∈ l, P (f b a)) : P (l.foldl f b) := by
  induction l generalizing b with
  | nil => exact h0
  | cons a l ih => exact ih _ (h b h0 a (by simp)) (fun b hb a ha => h b hb a (by simp [ha]))

/-! ## Loading a token -/

@[simp] theorem putToken_i (w : Work) (t : List Byte) : (w.putToken t).i = w.i := rfl
@[simp] theorem putToken_j (w : Work) (t : List Byte) : (w.putToken t).j = w.j := rfl
@[simp] theorem putToken_m (w : Work) (t : List Byte) : (w.putToken t).m = w.m := rfl
@[simp] theorem putToken_lim (w : Work) (t : List Byte) : (w.putToken t).lim = w.lim := rfl
@[simp] theorem putToken_k (w : Work) (t : List Byte) : (w.putToken t).k = w.k := rfl
@[simp] theorem putToken_d (w : Work) (t : List Byte) : (w.putToken t).d = w.d := rfl
@[simp] theorem putToken_s (w : Work) (t : List Byte) : (w.putToken t).s = w.s := rfl
@[simp] theorem putToken_bestM (w : Work) (t : List Byte) : (w.putToken t).bestM = w.bestM := rfl
@[simp] theorem putToken_bestJ (w : Work) (t : List Byte) : (w.putToken t).bestJ = w.bestJ := rfl
@[simp] theorem putToken_c (w : Work) (t : List Byte) : (w.putToken t).c = w.c := rfl
@[simp] theorem putToken_t (w : Work) (t : List Byte) : (w.putToken t).t = w.t := rfl
@[simp] theorem putToken_tb (w : Work) (t : List Byte) :
    (w.putToken t).tb = t ++ w.tb.drop t.length := rfl
@[simp] theorem putToken_tl (w : Work) (t : List Byte) :
    (w.putToken t).tl = BitVec.ofNat 7 t.length := rfl

/-- `TL` of a token that fits in 7 bits. -/
theorem putToken_tl_toNat (w : Work) {t : List Byte} (h : t.length < 128) :
    (w.putToken t).tl.toNat = t.length := by
  simp only [putToken_tl, BitVec.toNat_ofNat]; omega

/-- `TB[0 .. TL-1]` after loading a token is the token. -/
theorem putToken_valid (w : Work) {t : List Byte} (h : t.length < 128) :
    (w.putToken t).tb.take (w.putToken t).tl.toNat = t := by
  rw [putToken_tl_toNat w h, putToken_tb, List.take_left]

/-! ## Adoption -/

/-- Adoption replaces the running minimum only if strictly cheaper (R118, R121, R124). -/
theorem adopt_of_lt {w : Work} {total : Word} (h : total < w.c) (len : Nat) (tok : List Byte) :
    w.adopt total len tok = { ({ w with s := total } : Work).putToken tok with
      c := total, t := w.i + BitVec.ofNat 18 len } := by
  simp [Work.adopt, h]

theorem adopt_of_not_lt {w : Work} {total : Word} (h : ¬ total < w.c) (len : Nat)
    (tok : List Byte) : w.adopt total len tok = { w with s := total } := by
  simp [Work.adopt, h]

@[simp] theorem adopt_i (w : Work) (total : Word) (len : Nat) (tok : List Byte) :
    (w.adopt total len tok).i = w.i := by simp only [Work.adopt]; split <;> rfl
@[simp] theorem adopt_j (w : Work) (total : Word) (len : Nat) (tok : List Byte) :
    (w.adopt total len tok).j = w.j := by simp only [Work.adopt]; split <;> rfl
@[simp] theorem adopt_m (w : Work) (total : Word) (len : Nat) (tok : List Byte) :
    (w.adopt total len tok).m = w.m := by simp only [Work.adopt]; split <;> rfl
@[simp] theorem adopt_lim (w : Work) (total : Word) (len : Nat) (tok : List Byte) :
    (w.adopt total len tok).lim = w.lim := by simp only [Work.adopt]; split <;> rfl
@[simp] theorem adopt_bestM (w : Work) (total : Word) (len : Nat) (tok : List Byte) :
    (w.adopt total len tok).bestM = w.bestM := by simp only [Work.adopt]; split <;> rfl
@[simp] theorem adopt_bestJ (w : Work) (total : Word) (len : Nat) (tok : List Byte) :
    (w.adopt total len tok).bestJ = w.bestJ := by simp only [Work.adopt]; split <;> rfl

@[simp] theorem msBest_i (w : Work) : w.msBest.i = w.i := by
  simp only [Work.msBest]; split <;> rfl
@[simp] theorem msBest_j (w : Work) : w.msBest.j = w.j := by
  simp only [Work.msBest]; split <;> rfl
@[simp] theorem msBest_m (w : Work) : w.msBest.m = w.m := by
  simp only [Work.msBest]; split <;> rfl
@[simp] theorem msBest_lim (w : Work) : w.msBest.lim = w.lim := by
  simp only [Work.msBest]; split <;> rfl
@[simp] theorem msBest_c (w : Work) : w.msBest.c = w.c := by
  simp only [Work.msBest]; split <;> rfl
@[simp] theorem msBest_t (w : Work) : w.msBest.t = w.t := by
  simp only [Work.msBest]; split <;> rfl
@[simp] theorem msBest_tb (w : Work) : w.msBest.tb = w.tb := by
  simp only [Work.msBest]; split <;> rfl
@[simp] theorem msBest_tl (w : Work) : w.msBest.tl = w.tl := by
  simp only [Work.msBest]; split <;> rfl

/-! ## The offset register -/

@[simp] theorem scanLength_i (s : State) (w : Work) (k : Nat) : (s.scanLength w k).i = w.i := by
  simp [State.scanLength, State.cbTryApprox]

@[simp] theorem tryExactLength_i (s : State) (w : Work) (len : Nat) :
    (s.tryExactLength w len).i = w.i := by simp [State.tryExactLength]

@[simp] theorem scanAddress_i (s : State) (w : Work) (j : Nat) : (s.scanAddress w j).i = w.i := by
  simp only [State.scanAddress]
  split
  · simp [State.setRun]
  · exact foldl_invariant (fun x : Work => x.i = w.i) _ _ _ (by simp [State.setRun])
      (fun b hb a _ => by simp [hb])

@[simp] theorem msScan_i (s : State) (w : Work) : (s.msScan w).i = w.i :=
  foldl_invariant (fun x : Work => x.i = w.i) _ _ _ rfl (fun b hb a _ => by simp [hb])

@[simp] theorem cbTryExact_i (s : State) (w : Work) : (s.cbTryExact w).i = w.i :=
  foldl_invariant (fun x : Work => x.i = w.i) _ _ _ rfl (fun b hb a _ => by simp [hb])

/-- The offset step works at `I = CUR - 1` (R127). -/
theorem offsetWork_i (s : State) : s.offsetWork.i = s.block.cur - 1 := by
  simp [State.offsetWork, State.cbSeed]

theorem offset_pred_toNat {c : Offset} (h : 0 < c.toNat) : (c - 1).toNat = c.toNat - 1 := by
  have := c.isLt
  simp [BitVec.toNat_sub]; omega

/-- CUR counts down by one per offset step (10_state.md R16). -/
theorem offsetStep_cur {s : State} (h : 0 < s.block.cur.toNat) :
    s.offsetStep.block.cur.toNat = s.block.cur.toNat - 1 := by
  simp only [State.offsetStep, State.cbCommit_block_cur, offsetWork_i, offset_pred_toNat h]

end Sys2Proof.Machine
end

