-- ==== Sys2Proof/Laws/Scan.lean ====
section
/-! SUPPORT. What the scan and the candidate loops compute: run lengths, mismatch counts, rendered
tokens, the best pair, and the running minimum as a fold over the candidates of R113. -/

namespace Sys2Proof.Machine

open Sys2Proof

/-! ## Runs and mismatches -/

theorem msLim_le (s : State) (i j : Nat) : s.msLim i j ≤ 64 := Nat.min_le_left _ _

theorem msLim_bounds (s : State) (i j : Nat) (h : 0 < s.msLim i j) :
    i + s.msLim i j ≤ s.n ∧ j + s.msLim i j ≤ s.n := by
  simp only [State.msLim] at *; omega

/-- The run length loop: it stays between the start and the bound, all positions before its result
match, and it stops at a mismatch or at the bound. -/
theorem runFrom_spec (s : State) (i j fuel m : Nat) :
    m ≤ s.runFrom i j fuel m ∧ s.runFrom i j fuel m ≤ m + fuel ∧
    (∀ p, m ≤ p → p < s.runFrom i j fuel m → s.differs i j p = false) ∧
    (s.runFrom i j fuel m < m + fuel → s.differs i j (s.runFrom i j fuel m) = true) := by
  induction fuel generalizing m with
  | zero => simp [State.runFrom]; omega
  | succ fuel ih =>
    simp only [State.runFrom]
    split
    · next hd => refine ⟨Nat.le_refl _, by omega, by intros; omega, fun _ => hd⟩
    · next hd =>
      obtain ⟨h1, h2, h3, h4⟩ := ih (m + 1)
      refine ⟨by omega, by omega, ?_, fun h => h4 (by omega)⟩
      intro p hp hlt
      by_cases hpm : p = m
      · subst hpm; simpa using hd
      · exact h3 p (by omega) hlt

theorem msRunlen_le (s : State) (i j : Nat) : s.msRunlen i j ≤ s.msLim i j :=
  Nat.le_trans (runFrom_spec s i j (s.msLim i j) 0).2.1 (Nat.le_of_eq (Nat.zero_add _))

theorem differs_of_lt_runlen {s : State} {i j p : Nat} (h : p < s.msRunlen i j) :
    s.differs i j p = false := (runFrom_spec s i j (s.msLim i j) 0).2.2.1 p (Nat.zero_le _) h

theorem differs_at_runlen {s : State} {i j : Nat} (h : s.msRunlen i j < s.msLim i j) :
    s.differs i j (s.msRunlen i j) = true :=
  (runFrom_spec s i j (s.msLim i j) 0).2.2.2 (by simpa [State.msRunlen] using h)

theorem differs_eq_false {s : State} {i j p : Nat} :
    s.differs i j p = false ↔ s.tgtByte (i + p) = s.refByte (j + p) := by simp [State.differs]

theorem differs_eq_true {s : State} {i j p : Nat} :
    s.differs i j p = true ↔ s.tgtByte (i + p) ≠ s.refByte (j + p) := by simp [State.differs]

theorem msDiffs_succ (s : State) (i j k : Nat) :
    s.msDiffs i j (k + 1) = s.msDiffs i j k + (s.differs i j k).toNat := by
  simp only [State.msDiffs, List.range_succ, List.countP_append]
  cases h : s.differs i j k <;> simp [h]

theorem msDiffs_runlen (s : State) (i j : Nat) {k : Nat} (h : k ≤ s.msRunlen i j) :
    s.msDiffs i j k = 0 := by
  simp only [State.msDiffs, List.countP_eq_zero, List.mem_range]
  intro p hp; simp [differs_of_lt_runlen (Nat.lt_of_lt_of_le hp h)]

/-- The mismatches of an extension lie after the run. -/
theorem msDiffs_le (s : State) (i j : Nat) {k : Nat} (h : s.msRunlen i j ≤ k) :
    s.msDiffs i j k ≤ k - s.msRunlen i j := by
  induction k, h using Nat.le_induction with
  | base => simp [msDiffs_runlen]
  | succ k hk ih =>
    rw [msDiffs_succ]
    have := (s.differs i j k).toNat_le
    omega

/-! ## Rendered tokens -/

theorem teApprox_length (s : State) (i j k : Nat) :
    (s.teApprox i j k).length = msAsize k (s.msDiffs i j k) := by
  simp [State.teApprox, State.teBitmap, State.tePatches, msAsize, State.msDiffs, Config.HDR_SIZE,
    List.countP_eq_length_filter]
  omega

@[simp] theorem teExact_length (len : Nat) (a : RefAddr) : (teExact len a).length = 3 := rfl

@[simp] theorem teLit1_length (s : State) (i : Nat) : (s.teLit1 i).length = 2 := rfl

/-- The token of a candidate has at most 74 bytes (30_encoding.md R75). -/
theorem msAsize_le (s : State) (i j : Nat) {k : Nat} (h0 : 0 < s.msRunlen i j)
    (h1 : s.msRunlen i j ≤ k) (h2 : k ≤ s.msLim i j) : msAsize k (s.msDiffs i j k) ≤ 74 := by
  have := msDiffs_le s i j h1
  have := msLim_le s i j
  simp only [msAsize, Config.HDR_SIZE, ceil8_eq]
  omega

/-! ## The running minimum as a fold over candidates -/

/-- The cheaper of two candidates, the first of two equals (R124). -/
def betterOf (b c : Candidate) : Candidate := if c.cost < b.cost then c else b

/-- Folding `betterOf` gives the first minimum. -/
theorem foldl_betterOf (c : Candidate) (cs : List Candidate) :
    FirstMinimum (cs.foldl betterOf c) (c :: cs) := by
  suffices h : ∀ (cs pre post : List Candidate) (b : Candidate),
      (∀ x ∈ pre, b.cost < x.cost) → (∀ x ∈ post, b.cost ≤ x.cost) →
      FirstMinimum (cs.foldl betterOf b) (pre ++ b :: post ++ cs) by
    simpa using h cs [] [] c (by simp) (by simp)
  intro cs
  induction cs with
  | nil => intro pre post b h1 h2; exact ⟨pre, post, by simp, h1, h2⟩
  | cons x cs ih =>
    intro pre post b h1 h2
    simp only [List.foldl_cons, betterOf]
    split
    · next hx =>
      have := ih (pre ++ b :: post) [] x (by
        intro y hy
        simp only [List.mem_append, List.mem_cons] at hy
        rcases hy with hy | rfl | hy
        · have := h1 y hy; omega
        · exact hx
        · have := h2 y hy; omega) (by simp)
      simpa using this
    · next hx =>
      have := ih pre (post ++ [x]) b h1 (by
        intro y hy
        simp only [List.mem_append, List.mem_singleton] at hy
        rcases hy with hy | rfl
        · exact h2 y hy
        · omega)
      simpa using this

/-- The registers `(C, T, TB, TL)` at offset `i` hold candidate `b`. -/
structure Work.Holds (w : Work) (i : Nat) (b : Candidate) : Prop where
  atOffset : w.i.toNat = i
  cost : w.c.toNat = b.cost
  reach : w.t.toNat = i + b.len
  size : w.tl.toNat = b.token.length
  bytes : w.tb.take w.tl.toNat = b.token

/-- One adoption test is one `betterOf`. -/
theorem adopt_holds {w : Work} {i : Nat} {b c : Candidate} {total : Word} (h : w.Holds i b)
    (hc : total.toNat = c.cost) (hl : i + c.len < 2 ^ 18) (ht : c.token.length < 128) :
    (w.adopt total c.len c.token).Holds i (betterOf b c) := by
  by_cases hlt : total < w.c
  · have hb : betterOf b c = c := by
      have := BitVec.lt_def.1 hlt
      rw [hc, h.cost] at this
      simp [betterOf, this]
    rw [adopt_of_lt hlt, hb]
    exact ⟨h.atOffset, hc, by simp only [BitVec.toNat_add, BitVec.toNat_ofNat, h.atOffset]; omega,
      putToken_tl_toNat w ht, putToken_valid w ht⟩
  · have hb : betterOf b c = b := by
      have : ¬ total.toNat < w.c.toNat := fun h' => hlt (BitVec.lt_def.2 h')
      rw [hc, h.cost] at this
      simp [betterOf, this]
    rw [adopt_of_not_lt hlt, hb]
    exact ⟨h.atOffset, h.cost, h.reach, h.size, h.bytes⟩

/-- Registers outside `(I, C, T, TB, TL)` do not matter to what is held. -/
theorem Work.Holds.congr {w w' : Work} {i : Nat} {b : Candidate} (h : w.Holds i b)
    (hi : w'.i = w.i) (hc : w'.c = w.c) (ht : w'.t = w.t) (htb : w'.tb = w.tb)
    (htl : w'.tl = w.tl) : w'.Holds i b :=
  ⟨by rw [hi, h.atOffset], by rw [hc, h.cost], by rw [ht, h.reach], by rw [htl, h.size], by rw [htl, htb, h.bytes]⟩

end Sys2Proof.Machine
end

