-- ==== Sys2Proof/Laws/Candidates.lean ====
section
/-! SUPPORT. The scan and the exact candidates of an offset as folds over the candidates of R113: the
best pair (R93) and the running minimum (R124). -/

namespace Sys2Proof.Machine

open Sys2Proof

/-! ## One address of the scan -/

/-- The registers `I` and `J`, BESTM and BESTJ are not the candidate's. -/
@[simp] theorem scanLength_j (s : State) (w : Work) (k : Nat) : (s.scanLength w k).j = w.j := by
  simp [State.scanLength, State.cbTryApprox]

@[simp] theorem scanLength_bestM (s : State) (w : Work) (k : Nat) :
    (s.scanLength w k).bestM = w.bestM := by simp [State.scanLength, State.cbTryApprox]

@[simp] theorem scanLength_bestJ (s : State) (w : Work) (k : Nat) :
    (s.scanLength w k).bestJ = w.bestJ := by simp [State.scanLength, State.cbTryApprox]

/-- The registers with which the candidates of address `j` begin. -/
def State.atAddress (s : State) (w : Work) (j : Nat) : Work :=
  (s.setRun { w with j := BitVec.ofNat 18 j }).msBest

theorem scanAddress_eq (s : State) (w : Work) (j : Nat) :
    s.scanAddress w j = if (s.atAddress w j).m.toNat = 0 then s.atAddress w j
      else (List.range' (s.atAddress w j).m.toNat
        ((s.atAddress w j).lim.toNat + 1 - (s.atAddress w j).m.toNat)).foldl s.scanLength
          (s.atAddress w j) := rfl

@[simp] theorem atAddress_i (s : State) (w : Work) (j : Nat) : (s.atAddress w j).i = w.i := by
  simp [State.atAddress, State.setRun]

theorem atAddress_j (s : State) (w : Work) {j : Nat} (h : j < 2 ^ 18) :
    (s.atAddress w j).j.toNat = j := by
  simp only [State.atAddress, State.setRun, msBest_j, BitVec.toNat_ofNat, Nat.mod_eq_of_lt h]

theorem atAddress_m (s : State) (w : Work) {j : Nat} (h : j < 2 ^ 18) :
    (s.atAddress w j).m.toNat = s.msRunlen w.i.toNat j := by
  have h1 := msRunlen_le s w.i.toNat j
  have h2 := msLim_le s w.i.toNat j
  simp only [State.atAddress, State.setRun, msBest_m, BitVec.toNat_ofNat, Nat.mod_eq_of_lt h]
  omega

theorem atAddress_lim (s : State) (w : Work) {j : Nat} (h : j < 2 ^ 18) :
    (s.atAddress w j).lim.toNat = s.msLim w.i.toNat j := by
  have h2 := msLim_le s w.i.toNat j
  simp only [State.atAddress, State.setRun, msBest_lim, BitVec.toNat_ofNat, Nat.mod_eq_of_lt h]
  omega

/-- The scan of an address changes BESTM and BESTJ as MS.BEST does (R92). -/
theorem scanAddress_best (s : State) (w : Work) (j : Nat) :
    (s.scanAddress w j).bestM = (s.atAddress w j).bestM ∧
    (s.scanAddress w j).bestJ = (s.atAddress w j).bestJ := by
  rw [scanAddress_eq]
  split
  · exact ⟨rfl, rfl⟩
  · exact foldl_invariant (fun x : Work => x.bestM = (s.atAddress w j).bestM ∧
      x.bestJ = (s.atAddress w j).bestJ) _ _ _ ⟨rfl, rfl⟩ (fun b hb a _ => by simp [hb])

/-- BESTM and BESTJ after an address, as numbers. -/
theorem atAddress_best (s : State) (w : Work) {j : Nat} (h : j < 2 ^ 17) :
    (w.bestM.toNat < s.msRunlen w.i.toNat j ∧
      (s.atAddress w j).bestM.toNat = s.msRunlen w.i.toNat j ∧
      (s.atAddress w j).bestJ.toNat = j) ∨
    (s.msRunlen w.i.toNat j ≤ w.bestM.toNat ∧
      (s.atAddress w j).bestM = w.bestM ∧ (s.atAddress w j).bestJ = w.bestJ) := by
  have h18 : j < 2 ^ 18 := by omega
  have hm : (s.setRun { w with j := BitVec.ofNat 18 j }).m.toNat = s.msRunlen w.i.toNat j := by
    have := atAddress_m s w h18
    simpa only [State.atAddress, msBest_m] using this
  simp only [State.atAddress, Work.msBest]
  by_cases hlt : w.bestM.toNat < s.msRunlen w.i.toNat j
  · refine .inl ⟨hlt, ?_⟩
    rw [if_pos (by rw [BitVec.lt_def, hm]; exact hlt)]
    refine ⟨hm, ?_⟩
    simp only [State.setRun, BitVec.toNat_setWidth, BitVec.toNat_ofNat, Nat.mod_eq_of_lt h18]
    exact Nat.mod_eq_of_lt h
  · refine .inr ⟨Nat.le_of_not_lt hlt, ?_⟩
    rw [if_neg (by rw [BitVec.lt_def, hm]; exact hlt)]
    exact ⟨rfl, rfl⟩

/-- What BESTM and BESTJ are after the addresses below `m`. -/
theorem scan_best (s : State) (w : Work) (m : Nat) (hm : m ≤ 2 ^ 17) :
    let w' := (List.range m).foldl s.scanAddress { w with bestM := 0 }
    w'.i = w.i ∧
    (∀ j, j < m → s.msRunlen w.i.toNat j ≤ w'.bestM.toNat) ∧
    (0 < w'.bestM.toNat → w'.bestJ.toNat < m ∧
      s.msRunlen w.i.toNat w'.bestJ.toNat = w'.bestM.toNat ∧
      ∀ j, j < w'.bestJ.toNat → s.msRunlen w.i.toNat j < w'.bestM.toNat) := by
  induction m with
  | zero => simp
  | succ m ih =>
    obtain ⟨h1, h2, h3⟩ := ih (by omega)
    simp only [List.range_succ, List.foldl_append, List.foldl_cons, List.foldl_nil]
    generalize (List.range m).foldl s.scanAddress { w with bestM := 0 } = v at *
    obtain ⟨e1, e2⟩ := scanAddress_best s v m
    rw [e1, e2, scanAddress_i, ← h1]
    rw [← h1] at h2 h3
    refine ⟨rfl, ?_⟩
    rcases atAddress_best s v (j := m) (by omega) with ⟨hlt, hb, hj⟩ | ⟨hle, hb, hj⟩
    · rw [hb, hj]
      refine ⟨fun j hjm => ?_, fun _ => ⟨by omega, rfl, fun j hjm => ?_⟩⟩
      · rcases Nat.lt_or_eq_of_le (Nat.le_of_lt_succ hjm) with h | rfl
        · exact Nat.le_of_lt (Nat.lt_of_le_of_lt (h2 j h) hlt)
        · exact Nat.le_refl _
      · exact Nat.lt_of_le_of_lt (h2 j hjm) hlt
    · rw [hb, hj]
      refine ⟨fun j hjm => ?_, fun hp => ?_⟩
      · rcases Nat.lt_or_eq_of_le (Nat.le_of_lt_succ hjm) with h | rfl
        · exact h2 j h
        · exact hle
      · obtain ⟨h, h'⟩ := h3 hp
        exact ⟨by omega, h'⟩

/-! ## The candidates of an offset, in order -/

/-- A fold whose every step simulates a list of candidates simulates their concatenation. -/
theorem foldl_holds {α : Type} (P : Work → Prop) (f : Work → α → Work)
    (g : α → List Candidate) (i : Nat) (l : List α) {w : Work} {b : Candidate}
    (hp : P w) (h : w.Holds i b)
    (step : ∀ w b, P w → w.Holds i b → ∀ a ∈ l, P (f w a) ∧
      (f w a).Holds i ((g a).foldl betterOf b)) :
    P (l.foldl f w) ∧ (l.foldl f w).Holds i ((l.flatMap g).foldl betterOf b) := by
  induction l generalizing w b with
  | nil => exact ⟨hp, h⟩
  | cons a l ih =>
    obtain ⟨hp', h'⟩ := step w b hp h a (by simp)
    simp only [List.foldl_cons, List.flatMap_cons, List.foldl_append]
    exact ih hp' h' (fun w b hp h a ha => step w b hp h a (by simp [ha]))

/-- A sum the block forms for an offset does not wrap (R114). -/
theorem cost_sum_toNat (s : State) {i o n : Nat} (hn : s.n ≤ Config.NMAX) (hb : s.CostsBounded i)
    (ho : o ≤ s.n) (hio : i < o) (hs : n ≤ 75) :
    (BitVec.ofNat 32 n + s.costEntry o).toNat = n + (s.costEntry o).toNat := by
  have := hb o ho hio
  have hnm : s.n ≤ 131072 := hn
  simp only [BitVec.toNat_add, BitVec.toNat_ofNat]
  omega

/-- CB.SEED holds the literal candidate (R115). -/
theorem cbSeed_holds (s : State) (w : Work) {i : Nat} (hi : w.i.toNat = i) (hn : s.n ≤ Config.NMAX)
    (hin : i < s.n) (hb : s.CostsBounded i) :
    (s.cbSeed w).Holds i (s.literalCandidate i) := by
  have hnm : s.n ≤ 131072 := hn
  refine ⟨hi, ?_, ?_, ?_, ?_⟩
  · simp only [State.cbSeed, hi]
    exact cost_sum_toNat s hn hb (by omega) (by omega) (by decide)
  · simp only [State.cbSeed, BitVec.toNat_add, hi, State.literalCandidate]
    simp; omega
  · simp [State.cbSeed, State.literalCandidate]
  · simp only [State.cbSeed, State.literalCandidate, hi]
    exact putToken_valid w (by simp)

/-- One `K` of the scan is one approximate candidate (R117). -/
theorem scanLength_holds (s : State) {w : Work} {i j k : Nat} {b : Candidate} (h : w.Holds i b)
    (hj : w.j.toNat = j) (hn : s.n ≤ Config.NMAX) (hb : s.CostsBounded i)
    (h0 : 0 < s.msRunlen i j) (h1 : s.msRunlen i j ≤ k) (h2 : k ≤ s.msLim i j) :
    (s.scanLength w k).Holds i (betterOf b (s.approxCandidate i j k)) := by
  have hlim := msLim_le s i j
  have hle := (msLim_bounds s i j (by omega)).1
  have hd := msDiffs_le s i j h1
  have hsz := msAsize_le s i j h0 h1 h2
  have hnm : s.n ≤ 131072 := hn
  have hk : (BitVec.ofNat 7 k).toNat = k := by simp only [BitVec.toNat_ofNat]; omega
  have hdd : (BitVec.ofNat 7 (s.msDiffs i j k)).toNat = s.msDiffs i j k := by
    simp only [BitVec.toNat_ofNat]; omega
  simp only [State.scanLength, State.cbTryApprox, hk, h.atOffset, hj, hdd]
  refine adopt_holds (c := s.approxCandidate i j k) (h.congr rfl rfl rfl rfl rfl) ?_ ?_ ?_
  · exact cost_sum_toNat s hn hb (by omega) (by omega) (by omega)
  · simp only [State.approxCandidate]; omega
  · simp only [State.approxCandidate, teApprox_length]; omega

/-- One `J` of the scan is the approximate candidates of that address, in order (R98). -/
theorem scanAddress_holds (s : State) {w : Work} {i j : Nat} {b : Candidate} (h : w.Holds i b)
    (hn : s.n ≤ Config.NMAX) (hb : s.CostsBounded i) (hj : j < s.n) :
    (s.scanAddress w j).Holds i ((s.approxCandidatesAt i j).foldl betterOf b) := by
  have hnm : s.n ≤ 131072 := hn
  have hj18 : j < 2 ^ 18 := by omega
  have hat : (s.atAddress w j).Holds i b :=
    h.congr (by simp) (by simp [State.atAddress, State.setRun])
      (by simp [State.atAddress, State.setRun]) (by simp [State.atAddress, State.setRun])
      (by simp [State.atAddress, State.setRun])
  rw [scanAddress_eq, State.approxCandidatesAt, atAddress_m s w hj18, atAddress_lim s w hj18,
    h.atOffset]
  split
  · exact hat
  · next h0 =>
    have := (foldl_holds (fun x : Work => x.j.toNat = j) s.scanLength
      (fun k => [s.approxCandidate i j k]) i
      (List.range' (s.msRunlen i j) (s.msLim i j + 1 - s.msRunlen i j))
      (atAddress_j s w hj18) hat (fun w b hp hh k hk => by
        simp only [List.mem_range'_1] at hk
        exact ⟨by simp [hp], scanLength_holds s hh hp hn hb (by omega) hk.1 (by omega)⟩)).2
    rwa [← List.map_eq_flatMap] at this

/-- The exact candidates at BESTJ, in order (R119 to R121). -/
theorem tryExactLength_holds (s : State) {w : Work} {i len : Nat} {b : Candidate} (h : w.Holds i b)
    (hj : w.bestJ = BitVec.ofNat 17 (s.bestAddr i)) (hn : s.n ≤ Config.NMAX)
    (hb : s.CostsBounded i) (h0 : 0 < len) (hl : i + len ≤ s.n) :
    (s.tryExactLength w len).Holds i (betterOf b (s.exactCandidate i len)) := by
  have hnm : s.n ≤ 131072 := hn
  simp only [State.tryExactLength, h.atOffset, hj]
  refine adopt_holds (c := s.exactCandidate i len) h ?_ ?_ ?_
  · exact cost_sum_toNat s hn hb hl (by omega) (by decide)
  · simp only [State.exactCandidate]; omega
  · simp [State.exactCandidate]

/-- The greatest of a list of runs. -/
theorem foldl_max_spec (f : Nat → Nat) (n : Nat) :
    (∀ j, j < n → f j ≤ (List.range n).foldl (fun b j => max b (f j)) 0) ∧
    (0 < (List.range n).foldl (fun b j => max b (f j)) 0 →
      ∃ j, j < n ∧ f j = (List.range n).foldl (fun b j => max b (f j)) 0) := by
  induction n with
  | zero => simp
  | succ n ih =>
    simp only [List.range_succ, List.foldl_append, List.foldl_cons, List.foldl_nil]
    generalize (List.range n).foldl (fun b j => max b (f j)) 0 = m at *
    refine ⟨fun j hj => ?_, fun hp => ?_⟩
    · rcases Nat.lt_or_eq_of_le (Nat.le_of_lt_succ hj) with h | rfl
      · exact Nat.le_trans (ih.1 j h) (Nat.le_max_left _ _)
      · exact Nat.le_max_right _ _
    · by_cases h : f n ≤ m
      · rw [Nat.max_eq_left h] at hp ⊢
        obtain ⟨j, hj, he⟩ := ih.2 hp
        exact ⟨j, by omega, he⟩
      · exact ⟨n, by omega, by rw [Nat.max_eq_right (by omega)]⟩

/-- The best pair of the scan is the one of R93. -/
theorem msScan_best (s : State) (w : Work) (hn : s.n ≤ Config.NMAX) :
    (s.msScan w).bestM.toNat = s.bestRun w.i.toNat ∧
    (0 < s.bestRun w.i.toNat → (s.msScan w).bestJ = BitVec.ofNat 17 (s.bestAddr w.i.toNat)) := by
  obtain ⟨-, h2, h3⟩ := scan_best s w s.n hn
  have hspec := foldl_max_spec (s.msRunlen w.i.toNat) s.n
  change _ ∧ (0 < s.bestRun w.i.toNat → ∃ j, j < s.n ∧ s.msRunlen w.i.toNat j = s.bestRun w.i.toNat)
    at hspec
  change ∀ j, j < s.n → s.msRunlen w.i.toNat j ≤ (s.msScan w).bestM.toNat at h2
  change 0 < (s.msScan w).bestM.toNat → (s.msScan w).bestJ.toNat < s.n ∧
      s.msRunlen w.i.toNat (s.msScan w).bestJ.toNat = (s.msScan w).bestM.toNat ∧
      ∀ j, j < (s.msScan w).bestJ.toNat →
        s.msRunlen w.i.toNat j < (s.msScan w).bestM.toNat at h3
  have heq : (s.msScan w).bestM.toNat = s.bestRun w.i.toNat := by
    apply Nat.le_antisymm
    · by_cases hp : 0 < (s.msScan w).bestM.toNat
      · obtain ⟨a, b, -⟩ := h3 hp
        rw [← b]; exact hspec.1 _ a
      · omega
    · by_cases hp : 0 < s.bestRun w.i.toNat
      · obtain ⟨j, hj, he⟩ := hspec.2 hp
        rw [← he]; exact h2 j hj
      · omega
  refine ⟨heq, fun hp => ?_⟩
  obtain ⟨a, b, c⟩ := h3 (by omega)
  have hfind : (List.range s.n).find? (fun j => s.msRunlen w.i.toNat j == s.bestRun w.i.toNat) =
      some (s.msScan w).bestJ.toNat := by
    rw [List.find?_range_eq_some]
    refine ⟨by simp [b, heq], by simpa using a, fun j hj => ?_⟩
    have := c j hj
    simp; omega
  simp [State.bestAddr, hfind]

/-- The longest run at an offset reaches at most `N`. -/
theorem bestRun_le (s : State) {i : Nat} (h : i ≤ s.n) : i + s.bestRun i ≤ s.n := by
  by_cases hp : 0 < s.bestRun i
  · obtain ⟨j, hj, he⟩ := (foldl_max_spec (s.msRunlen i) s.n).2 hp
    change s.msRunlen i j = s.bestRun i at he
    have := msRunlen_le s i j
    have := (msLim_bounds s i j (by omega)).1
    omega
  · omega

/-- **The running minimum.** Before the commit the registers hold the first cheapest candidate of
the offset, in the order of R113. -/
theorem offsetWork_holds (s : State) (hn : s.n ≤ Config.NMAX) (h0 : 0 < s.block.cur.toNat)
    (hc : s.block.cur.toNat ≤ s.n) (hb : s.CostsBounded (s.block.cur.toNat - 1)) :
    s.offsetWork.Holds (s.block.cur.toNat - 1)
      ((s.approxCandidates (s.block.cur.toNat - 1) ++ s.exactCandidates (s.block.cur.toNat - 1)).foldl
        betterOf (s.literalCandidate (s.block.cur.toNat - 1))) := by
  have hi := offset_pred_toNat h0
  generalize s.block.cur.toNat - 1 = i at *
  have hin : i < s.n := by have := offset_pred_toNat h0; omega
  have hseed := cbSeed_holds s { s.block.work with i := s.block.cur - 1 } hi hn hin hb
  have hscan := (foldl_holds (fun _ => True) s.scanAddress (s.approxCandidatesAt i) i
    (List.range s.n) (w := { s.cbSeed { s.block.work with i := s.block.cur - 1 } with bestM := 0 })
    trivial (hseed.congr rfl rfl rfl rfl rfl) (fun w b _ hh j hj =>
      ⟨trivial, scanAddress_holds s hh hn hb (List.mem_range.1 hj)⟩)).2
  have hbest := msScan_best s (s.cbSeed { s.block.work with i := s.block.cur - 1 }) hn
  rw [hseed.atOffset] at hbest
  rw [List.foldl_append]
  simp only [State.offsetWork, State.cbTryExact, State.exactCandidates, State.approxCandidates]
  rw [hbest.1]
  have hle := bestRun_le s (i := i) (by omega)
  by_cases hp : 0 < s.bestRun i
  · have := (foldl_holds (fun x : Work => x.bestJ = BitVec.ofNat 17 (s.bestAddr i))
      s.tryExactLength (fun len => [s.exactCandidate i len]) i
      (List.range' 1 (min (s.bestRun i) Config.EXACT_LMAX)) (hbest.2 hp) hscan
      (fun w b hp hh len hl => by
        simp only [List.mem_range'_1] at hl
        exact ⟨by simp [State.tryExactLength, hp], tryExactLength_holds s hh hp hn hb
          (by omega) (by omega)⟩)).2
    rwa [← List.map_eq_flatMap] at this
  · have : s.bestRun i = 0 := by omega
    rw [this, Nat.zero_min]
    exact hscan

end Sys2Proof.Machine
end

