-- ==== Sys2Proof/Laws/Rendered.lean ====
section
/-! SUPPORT. The tokens the block renders: the bits of a bitmap, the token each candidate stands for,
and what every candidate of an offset satisfies. -/

namespace Sys2Proof.Machine

open Sys2Proof

/-! ## The bits of a rendered bitmap -/

/-- A byte put together from its eight bits has those bits. -/
theorem byteOfBits_getLsbD (f : Nat → Bool) {q : Nat} (h : q < 8) :
    (BitVec.ofNat 8 ((List.range 8).map (fun q => if f q then 1 <<< q else 0)).sum).getLsbD q =
      f q := by
  have hall : ∀ b0 b1 b2 b3 b4 b5 b6 b7 : Bool, ∀ q : Fin 8,
      (BitVec.ofNat 8 ([if b0 then 1 <<< 0 else 0, if b1 then 1 <<< 1 else 0,
        if b2 then 1 <<< 2 else 0, if b3 then 1 <<< 3 else 0, if b4 then 1 <<< 4 else 0,
        if b5 then 1 <<< 5 else 0, if b6 then 1 <<< 6 else 0,
        if b7 then 1 <<< 7 else 0] : List Nat).sum).getLsbD q.val =
      [b0, b1, b2, b3, b4, b5, b6, b7].getD q.val false := by decide
  have := hall (f 0) (f 1) (f 2) (f 3) (f 4) (f 5) (f 6) (f 7) ⟨q, h⟩
  rw [show List.range 8 = [0, 1, 2, 3, 4, 5, 6, 7] from rfl]
  simp only [List.map_cons, List.map_nil]
  rw [this]
  interval_cases q <;> rfl

/-- Bit `p` of a rendered bitmap is 1 exactly where `p` lies in the window and differs (R143). -/
theorem bitAt_teBitmap (s : State) (i j k p : Nat) :
    bitAt (s.teBitmap i j k) p = (decide (p < k) && s.differs i j p) := by
  have hp : p >>> 3 = p / 8 := by simp [Nat.shiftRight_eq_div_pow]
  simp only [bitAt, State.teBitmap, hp]
  by_cases hb : p / 8 < ceil8 k
  · simp only [List.getD_eq_getElem?_getD, List.getElem?_map, List.getElem?_range hb,
      Option.map_some, Option.getD_some, State.bitmapByte]
    have := byteOfBits_getLsbD (fun q => decide (8 * (p / 8) + q < k) &&
      s.differs i j (8 * (p / 8) + q)) (q := p % 8) (by omega)
    rw [show 8 * (p / 8) + p % 8 = p by omega] at this
    exact this
  · rw [ceil8_eq] at hb
    have hpk : ¬ p < k := by omega
    simp [List.getD_eq_getElem?_getD, ceil8_eq, hpk, show (k + 7) / 8 ≤ p / 8 by omega]

@[simp] theorem teBitmap_length (s : State) (i j k : Nat) :
    (s.teBitmap i j k).length = ceil8 k := by simp [State.teBitmap]

theorem padBits_teBitmap (s : State) (i j k : Nat) : padBits k (s.teBitmap i j k) = false := by
  simp [padBits, bitAt_teBitmap]

/-- A rendered bitmap has as many 1 bits as the window has mismatches. -/
theorem popcounts_teBitmap (s : State) (i j k : Nat) :
    popcounts (s.teBitmap i j k) = s.msDiffs i j k := by
  rw [popcounts_of_no_padBits (padBits_teBitmap s i j k)
    (by rw [teBitmap_length, ceil8_eq]; omega)]
  exact List.countP_congr (fun p hp => by
    simp [bitAt_teBitmap, List.mem_range.1 hp])

@[simp] theorem tePatches_length (s : State) (i j k : Nat) :
    (s.tePatches i j k).length = s.msDiffs i j k := by
  simp [State.tePatches, State.msDiffs, List.countP_eq_length_filter]

/-! ## The token a rendering stands for -/

/-- The APPROX token of a candidate. -/
def State.approxInstr (s : State) (i j k : Nat) : Instr :=
  .approxMatch k (BitVec.ofNat 17 j) (s.teBitmap i j k) (s.tePatches i j k)

theorem approxInstr_wellFormed (s : State) (i j : Nat) {k : Nat} (h1 : 1 ≤ k) (h2 : k ≤ 64) :
    (s.approxInstr i j k).wellFormed = true :=
  approx_wellFormed.2 ⟨h1, h2, by simp, by simp [popcounts_teBitmap]⟩

theorem encode_approxInstr (s : State) (i j k : Nat) :
    encode (s.approxInstr i j k) = s.teApprox i j k := rfl

theorem encode_exactInstr (len : Nat) (a : RefAddr) :
    encode (.exactMatch len a) = teExact len a := rfl

theorem encode_litInstr (s : State) (i : Nat) :
    encode (.lit1 (s.refByte i ^^^ s.tgtByte i)) = s.teLit1 i := rfl

/-- The patch byte of a position: its number in the list is the count of mismatches before it. -/
theorem tePatches_getD (s : State) (i j : Nat) {k p : Nat} (hp : p < k)
    (hd : s.differs i j p = true) :
    (s.tePatches i j k).getD (s.msDiffs i j p) 0 = s.refByte (j + p) ^^^ s.tgtByte (i + p) := by
  have hsplit : List.range k = List.range p ++ (p :: List.range' (p + 1) (k - p - 1)) := by
    have := List.range'_append_1 (s := 0) (m := p) (n := k - p - 1 + 1)
    rw [← List.range'_succ, List.range_eq_range', List.range_eq_range']
    rw [Nat.zero_add] at this
    rw [this]
    congr 1; omega
  simp only [State.tePatches, State.msDiffs, hsplit, List.filter_append, List.map_append,
    List.countP_eq_length_filter, List.getD_eq_getElem?_getD]
  rw [List.getElem?_append_right (by simp)]
  simp [hd]


/-! ## What every candidate satisfies -/

/-- A token rebuilds the target from `i` on: a consumer that holds the block's REF and N and stands
at `i` writes exactly the next `len` bytes of TGT (R136). -/
def State.RebuildsWith (s : State) (i len : Nat) (ins : Instr) : Prop :=
  ∀ c : State, c.cons.ref = s.block.ref → c.cons.n = s.n → c.cons.o = i →
    exec ins c = .next (c.emit ((List.range len).map (fun p => s.tgtByte (i + p)))).refresh

/-- What R96, R112, R128 to R130, R134 and R136 say of one candidate at offset `i`. -/
structure State.CandidateOk (s : State) (i : Nat) (c : Candidate) (ins : Instr) : Prop where
  encoded : c.token = encode ins
  wellFormed : ins.wellFormed = true
  emitted : isEmitted ins = true
  advances : 1 ≤ c.len ∧ c.len ≤ 64 ∧ i + c.len ≤ s.n
  size : 2 ≤ c.token.length ∧ c.token.length ≤ 74
  cost : c.cost = c.token.length + (s.costEntry (i + c.len)).toNat
  window : ∀ len addr, matchWindow ins = some (len, addr) →
    len = c.len ∧ addr.toNat + len ≤ s.n
  rebuilds : s.InputsWritten → s.RebuildsWith i c.len ins

theorem consRefByte_eq {s c : State} {a : Nat} (h : s.InputsWritten) (hr : c.cons.ref = s.block.ref)
    (ha : a < s.n) : c.consRefByte a = s.refByte a := by
  obtain ⟨x, hx⟩ := Option.isSome_iff_exists.1 (h a ha).1
  simp [State.consRefByte, State.refByte, hr, hx]

theorem xor_xor_self (a b : Byte) : a ^^^ (a ^^^ b) = b := by
  rw [← BitVec.xor_assoc, BitVec.xor_self, BitVec.zero_xor]

theorem literalCandidate_ok (s : State) {i : Nat} (hi : i < s.n) :
    s.CandidateOk i (s.literalCandidate i) (.lit1 (s.refByte i ^^^ s.tgtByte i)) where
  encoded := rfl
  wellFormed := rfl
  emitted := rfl
  advances := ⟨Nat.le_refl 1, by simp [State.literalCandidate], hi⟩
  size := by simp [State.literalCandidate]
  cost := rfl
  window := by intro len addr h; cases h
  rebuilds := by
    intro hw c hr hn ho
    simp [exec, execLit1, ho, hn, hi, consRefByte_eq hw hr hi, State.literalCandidate]

theorem exactCandidate_ok (s : State) {i j len : Nat} (hn : s.n ≤ Config.NMAX) (hj : j < s.n)
    (h1 : 1 ≤ len) (h2 : len ≤ 63) (hl : len ≤ s.msRunlen i j) :
    s.CandidateOk i ⟨len, Config.HDR_SIZE + (s.costEntry (i + len)).toNat,
      teExact len (BitVec.ofNat 17 j)⟩ (.exactMatch len (BitVec.ofNat 17 j)) := by
  have hlim := msRunlen_le s i j
  obtain ⟨hb1, hb2⟩ := msLim_bounds s i j (by omega)
  have hnm : s.n ≤ 131072 := hn
  have hjt : (BitVec.ofNat 17 j).toNat = j := by simp only [BitVec.toNat_ofNat]; omega
  refine ⟨rfl, exact_wellFormed.2 ⟨h1, h2⟩, rfl, ⟨h1, by dsimp; omega, by dsimp; omega⟩, by simp,
    rfl, ?_, ?_⟩
  · intro l a h
    cases h
    exact ⟨rfl, by omega⟩
  · intro hw c hr hcn ho
    have hcopy : c.copied len (BitVec.ofNat 17 j) =
        (List.range len).map (fun p => s.tgtByte (i + p)) := by
      refine List.map_congr_left (fun p hp => ?_)
      have hp := List.mem_range.1 hp
      rw [hjt, consRefByte_eq hw hr (by omega)]
      exact (differs_eq_false.1 (differs_of_lt_runlen (by omega))).symm
    simp only [exec, execExactMatch]
    rw [windowFault_none.2 ⟨by omega, by omega⟩, hcopy]

theorem approxCandidate_ok (s : State) {i j k : Nat} (hn : s.n ≤ Config.NMAX) (hj : j < s.n)
    (h0 : 0 < s.msRunlen i j) (h1 : s.msRunlen i j ≤ k) (h2 : k ≤ s.msLim i j) :
    s.CandidateOk i (s.approxCandidate i j k) (s.approxInstr i j k) := by
  have hlim := msLim_le s i j
  obtain ⟨hb1, hb2⟩ := msLim_bounds s i j (by omega)
  have hnm : s.n ≤ 131072 := hn
  have hjt : (BitVec.ofNat 17 j).toNat = j := by simp only [BitVec.toNat_ofNat]; omega
  have hsz := msAsize_le s i j h0 h1 h2
  have hwf := approxInstr_wellFormed s i j (k := k) (by omega) (by omega)
  refine ⟨rfl, hwf, rfl, ⟨by dsimp [State.approxCandidate]; omega,
    by dsimp [State.approxCandidate]; omega, by dsimp [State.approxCandidate]; omega⟩, ?_, ?_, ?_, ?_⟩
  · simp only [State.approxCandidate, teApprox_length]
    exact ⟨by simp [msAsize, Config.HDR_SIZE]; omega, hsz⟩
  · simp [State.approxCandidate, teApprox_length]
  · intro l a h
    cases h
    exact ⟨rfl, by omega⟩
  · intro hw c hr hcn ho
    obtain ⟨r, hr', hl, hq⟩ := execApproxMatch_next (s := c) hwf (padBits_teBitmap s i j k)
      (by omega) (by omega)
    have hbytes : r = (List.range k).map (fun p => s.tgtByte (i + p)) := by
      refine List.ext_getElem? (fun q => ?_)
      by_cases hqk : q < k
      · rw [hq q hqk]
        have hcount : (List.range q).countP (bitAt (s.teBitmap i j k)) = s.msDiffs i j q :=
          List.countP_congr (fun p hp => by
            have := List.mem_range.1 hp
            simp [bitAt_teBitmap, show p < k by omega])
        rw [hjt, consRefByte_eq hw hr (by omega), hcount, bitAt_teBitmap]
        simp only [hqk, decide_true, Bool.true_and, List.getElem?_map, List.getElem?_range,
          Option.map_some, Option.some.injEq]
        split
        · next hd => rw [tePatches_getD s i j hqk hd, xor_xor_self]
        · next hd => exact (differs_eq_false.1 (by simpa using hd)).symm
      · rw [List.getElem?_eq_none (by omega), List.getElem?_eq_none (by simp; omega)]
    rw [hbytes] at hr'
    exact hr'

/-- Every candidate of an offset is well shaped, advances inside the buffer, and rebuilds the
target. -/
theorem candidate_ok (s : State) {i : Nat} (hn : s.n ≤ Config.NMAX) (hi : i < s.n) {c : Candidate}
    (hc : c ∈ s.candidates i) : ∃ ins, s.CandidateOk i c ins := by
  simp only [State.candidates, List.mem_cons, List.mem_append, State.approxCandidates,
    List.mem_flatMap, List.mem_range, State.exactCandidates, List.mem_map, List.mem_range'_1] at hc
  rcases hc with rfl | ⟨j, hj, hc⟩ | ⟨len, ⟨h1, h2⟩, rfl⟩
  · exact ⟨_, literalCandidate_ok s hi⟩
  · simp only [State.approxCandidatesAt] at hc
    split at hc
    · simp at hc
    · next h0 =>
      simp only [List.mem_map, List.mem_range'_1] at hc
      obtain ⟨k, ⟨h1, h2⟩, rfl⟩ := hc
      exact ⟨_, approxCandidate_ok s hn hj (by omega) h1 (by omega)⟩
  · have hlt : 0 < s.bestRun i := by omega
    obtain ⟨j, hj, hjb⟩ := (foldl_max_spec (s.msRunlen i) s.n).2 hlt
    change s.msRunlen i j = s.bestRun i at hjb
    have haddr : s.bestAddr i < s.n ∧ s.msRunlen i (s.bestAddr i) = s.bestRun i := by
      simp only [State.bestAddr]
      cases hf : (List.range s.n).find? (fun j => s.msRunlen i j == s.bestRun i) with
      | none => have := List.find?_eq_none.1 hf j (by simpa using hj); simp [hjb] at this
      | some a =>
        have h1 := List.mem_of_find?_eq_some hf
        have h2 := List.find?_some hf
        exact ⟨by simpa using h1, by simpa using h2⟩
    have : Config.EXACT_LMAX = 63 := rfl
    exact ⟨_, exactCandidate_ok s hn haddr.1 h1 (by omega) (by omega)⟩

end Sys2Proof.Machine
end

