-- ==== Sys2Proof/Laws/View.lean ====
section
/-! SUPPORT. The block sees of the whole state only its own part and the counter of free values: two
states with the same block and counter take the same block step. -/

namespace Sys2Proof.Machine

open Sys2Proof

/-- Two states that agree on what an offset step reads: memories, NLEN, and the counter of free
values; the working registers may differ (10_state.md R14). -/
structure State.SameTables (s t : State) : Prop where
  nlen : s.block.nlen = t.block.nlen
  ref : s.block.ref = t.block.ref
  tgt : s.block.tgt = t.block.tgt
  cost : s.block.cost = t.block.cost
  trans : s.block.trans = t.block.trans
  toklen : s.block.toklen = t.block.toklen
  tok : s.block.tok = t.block.tok
  fresh : s.fresh = t.fresh

/-- Two states the block cannot tell apart. -/
abbrev State.SameBlock (s t : State) : Prop := s.block = t.block ∧ s.fresh = t.fresh

variable {s t : State}

theorem State.SameBlock.tables (h : s.SameBlock t) : s.SameTables t := by
  obtain ⟨h1, h2⟩ := h
  constructor <;> simp [h1, h2]

theorem State.SameTables.n (h : s.SameTables t) : s.n = t.n := by simp [State.n, h.nlen]

theorem State.SameTables.free (h : s.SameTables t) : s.free = t.free := by
  funext w a b; simp [State.free, h.fresh]

theorem State.SameTables.refByte (h : s.SameTables t) : s.refByte = t.refByte := by
  funext a; simp [State.refByte, h.free, h.ref]

theorem State.SameTables.tgtByte (h : s.SameTables t) : s.tgtByte = t.tgtByte := by
  funext a; simp [State.tgtByte, h.free, h.tgt]

theorem State.SameTables.costEntry (h : s.SameTables t) : s.costEntry = t.costEntry := by
  funext a; simp [State.costEntry, h.free, h.cost]

theorem State.SameTables.transEntry (h : s.SameTables t) : s.transEntry = t.transEntry := by
  funext a; simp [State.transEntry, h.free, h.trans]

theorem State.SameTables.toklenEntry (h : s.SameTables t) : s.toklenEntry = t.toklenEntry := by
  funext a; simp [State.toklenEntry, h.free, h.toklen]

theorem State.SameTables.tokByte (h : s.SameTables t) : s.tokByte = t.tokByte := by
  funext a b; simp [State.tokByte, h.free, h.tok]

theorem State.SameTables.differs (h : s.SameTables t) : s.differs = t.differs := by
  funext i j p; simp [State.differs, h.refByte, h.tgtByte]

theorem State.SameTables.msLim (h : s.SameTables t) : s.msLim = t.msLim := by
  funext i j; simp [State.msLim, h.n]

theorem State.SameTables.runFrom (h : s.SameTables t) (i j fuel m : Nat) :
    s.runFrom i j fuel m = t.runFrom i j fuel m := by
  induction fuel generalizing m with
  | zero => rfl
  | succ fuel ih => simp [State.runFrom, h.differs, ih]

theorem State.SameTables.msRunlen (h : s.SameTables t) : s.msRunlen = t.msRunlen := by
  funext i j; simp [State.msRunlen, h.msLim, h.runFrom]

theorem State.SameTables.msDiffs (h : s.SameTables t) : s.msDiffs = t.msDiffs := by
  funext i j k; simp [State.msDiffs, h.differs]

theorem State.SameTables.teLit1 (h : s.SameTables t) : s.teLit1 = t.teLit1 := by
  funext i; simp [State.teLit1, h.refByte, h.tgtByte]

theorem State.SameTables.teApprox (h : s.SameTables t) : s.teApprox = t.teApprox := by
  have hb : s.bitmapByte = t.bitmapByte := by
    funext i j k b; simp [State.bitmapByte, h.differs]
  funext i j k
  simp [State.teApprox, State.teBitmap, State.tePatches, hb, h.differs, h.refByte, h.tgtByte]

theorem State.SameTables.setRun (h : s.SameTables t) : s.setRun = t.setRun := by
  funext w; simp [State.setRun, h.msLim, h.msRunlen]

theorem State.SameTables.scanLength (h : s.SameTables t) : s.scanLength = t.scanLength := by
  funext w k; simp [State.scanLength, State.cbTryApprox, h.msDiffs, h.costEntry, h.teApprox]

theorem State.SameTables.scanAddress (h : s.SameTables t) : s.scanAddress = t.scanAddress := by
  funext w j; simp [State.scanAddress, h.setRun, h.scanLength]

theorem State.SameTables.tryExactLength (h : s.SameTables t) :
    s.tryExactLength = t.tryExactLength := by
  funext w len; simp [State.tryExactLength, h.costEntry]

/-- The working registers at the end of an offset step depend on the block and the counter alone. -/
theorem State.SameBlock.offsetWork (h : s.SameBlock t) : s.offsetWork = t.offsetWork := by
  simp [State.offsetWork, State.cbTryExact, State.msScan, State.cbSeed, h.tables.tryExactLength,
    h.tables.scanAddress, h.tables.n, h.tables.teLit1, h.tables.costEntry, h.1]

theorem State.SameBlock.unspecifiedWork (h : s.SameBlock t) :
    s.unspecifiedWork = t.unspecifiedWork := by simp [State.unspecifiedWork, h.tables.free]

/-- The block's step gives the same block. -/
theorem State.SameBlock.blockStep (h : s.SameBlock t) : s.blockStep.SameBlock t.blockStep := by
  have hp : s.block.phase = t.block.phase := by rw [h.1]
  have hc : s.block.cur = t.block.cur := by rw [h.1]
  simp only [State.SameBlock, State.blockStep, hp, hc]
  cases t.block.phase with
  | idle => exact h
  | done => exact h
  | run =>
    dsimp only
    by_cases h0 : t.block.cur.toNat = 0
    · simp [h0, State.setPhase, h.1, h.2]
    · simp [h0, State.offsetStep, State.cbCommit, h.offsetWork, h.unspecifiedWork, h.1, h.2]

/-- A host write gives the same block. -/
theorem State.SameBlock.hostWrite (h : s.SameBlock t) (tg : Target) (v : Word) :
    (s.hostWrite tg v).SameBlock (t.hostWrite tg v) := by
  have hn := h.tables.n
  obtain ⟨b, c, hs, f⟩ := s
  obtain ⟨b', c', hs', f'⟩ := t
  obtain ⟨rfl, rfl⟩ := h
  simp only [State.hostWrite, State.writeCsr, State.start, hn]
  split
  · exact ⟨rfl, rfl⟩
  split
  · split
    · split
      · split <;> exact ⟨rfl, rfl⟩
      · exact ⟨rfl, rfl⟩
    · split <;> exact ⟨rfl, rfl⟩
  split
  · split <;> exact ⟨rfl, rfl⟩
  split
  · split <;> exact ⟨rfl, rfl⟩
  · exact ⟨rfl, rfl⟩

/-- Reset gives the same block. -/
theorem State.SameBlock.resetBlock (h : s.SameBlock t) : s.resetBlock.SameBlock t.resetBlock := by
  simp [State.SameBlock, State.resetBlock, h.unspecifiedWork, h.2, State.refresh]

theorem State.sameBlock_setInbox (s : State) (rest : List Event) :
    (s.setInbox rest).SameBlock s := ⟨rfl, rfl⟩

end Sys2Proof.Machine
end

