-- ==== Sys2Proof/Laws/Step.lean ====
section
/-! SUPPORT. What one step of the machine can be, said once. -/

namespace Sys2Proof.Machine

open Sys2Proof

/-- What the consumer's step can do: the block and the host stay as they are. -/
theorem consumerStep_cases {s t : State} (h : consumerStep s = .next t) :
    (∃ i rest, decode s.cons.stream = .ok (i, rest) ∧ exec i (s.setStream rest) = .next t) ∨
    t = s.endOfStream ∨ t = s.reject .truncated := by
  simp only [consumerStep] at h
  split at h
  · next i rest hd => exact .inl ⟨i, rest, hd, h⟩
  · cases h; exact .inr (.inl rfl)
  · cases h; exact .inr (.inr rfl)

/-- A token changes nothing of the block or the host. -/
theorem exec_block_host {i : Instr} {s t : State} (h : exec i s = .next t) :
    t.block = s.block ∧ t.host = s.host := by
  rcases exec_cases h with ⟨why, rfl⟩ | ⟨bytes, rfl, -⟩ <;> exact ⟨rfl, rfl⟩

@[simp] theorem endOfStream_block (s : State) : s.endOfStream.block = s.block := by
  simp only [State.endOfStream]; split <;> rfl

@[simp] theorem endOfStream_host (s : State) : s.endOfStream.host = s.host := by
  simp only [State.endOfStream]; split <;> rfl

/-- The consumer's step changes nothing of the block or the host. -/
theorem consumerStep_block_host {s t : State} (h : consumerStep s = .next t) :
    t.block = s.block ∧ t.host = s.host := by
  rcases consumerStep_cases h with ⟨i, rest, -, he⟩ | rfl | rfl
  · have := exec_block_host he
    exact this
  · exact ⟨by simp, by simp⟩
  · exact ⟨rfl, rfl⟩

/-- The block step changes neither the consumer nor the host. -/
theorem blockStep_cons_host (s : State) : s.blockStep.cons = s.cons ∧ s.blockStep.host = s.host := by
  simp only [State.blockStep]
  cases s.block.phase with
  | idle => exact ⟨rfl, rfl⟩
  | done => exact ⟨rfl, rfl⟩
  | run => dsimp only; split <;> exact ⟨rfl, rfl⟩

/-- A host write changes neither the consumer nor the host. -/
theorem hostWrite_cons_host (s : State) (tg : Target) (v : Word) :
    (s.hostWrite tg v).cons = s.cons ∧ (s.hostWrite tg v).host = s.host ∧
      (s.hostWrite tg v).fresh = s.fresh := by
  simp only [State.hostWrite, State.writeCsr, State.start]
  split
  · exact ⟨rfl, rfl, rfl⟩
  split
  · split
    · split
      · split <;> exact ⟨rfl, rfl, rfl⟩
      · exact ⟨rfl, rfl, rfl⟩
    · split <;> exact ⟨rfl, rfl, rfl⟩
  split
  · split <;> exact ⟨rfl, rfl, rfl⟩
  split
  · split <;> exact ⟨rfl, rfl, rfl⟩
  · exact ⟨rfl, rfl, rfl⟩

/-- What a host write can do, said once. -/
theorem hostWrite_cases (s : State) (tg : Target) (v : Word) :
    (s.block.phase = .run ∧ s.hostWrite tg v = s.raise .busyWrite) ∨
    (s.block.phase ≠ .run ∧ s.hostWrite tg v = s) ∨
    (s.block.phase ≠ .run ∧ tg.space = spaceCsr ∧ tg.index = 0 ∧ startBit v = true ∧
      ((Config.NMAX < s.n ∧ s.hostWrite tg v = s.raise .cfgRange) ∨
       (s.n ≤ Config.NMAX ∧ s.hostWrite tg v = s.cbInit.setPhase .run))) ∨
    (s.block.phase ≠ .run ∧ tg.isInput = true ∧
      (s.hostWrite tg v = s.writeNlen v ∨
       (tg.index < Config.NMAX ∧ (s.hostWrite tg v = s.writeRef tg.index (v.setWidth 8) ∨
        s.hostWrite tg v = s.writeTgt tg.index (v.setWidth 8))))) := by
  obtain ⟨sp, ix, b⟩ := tg
  by_cases hp : s.block.phase = .run
  · exact .inl ⟨hp, by simp [State.hostWrite, hp]⟩
  simp only [State.hostWrite, if_neg hp, State.writeCsr, State.start, Target.isInput]
  split
  · next h0 =>
    split
    · next hi =>
      split
      · next hv =>
        refine .inr (.inr (.inl ⟨hp, h0, hi, hv, ?_⟩))
        split
        · next hn => exact .inl ⟨hn, rfl⟩
        · next hn => exact .inr ⟨Nat.le_of_not_lt hn, rfl⟩
      · exact .inr (.inl ⟨hp, rfl⟩)
    · split
      · next h2 => exact .inr (.inr (.inr ⟨hp, by simp [h0, h2], .inl rfl⟩))
      · exact .inr (.inl ⟨hp, rfl⟩)
  split
  · next h1 =>
    split
    · next ha => exact .inr (.inr (.inr ⟨hp, by simp [h1, ha], .inr ⟨ha, .inl rfl⟩⟩))
    · exact .inr (.inl ⟨hp, rfl⟩)
  split
  · next h2 =>
    split
    · next ha => exact .inr (.inr (.inr ⟨hp, by simp [h2, ha], .inr ⟨ha, .inr rfl⟩⟩))
    · exact .inr (.inl ⟨hp, rfl⟩)
  · exact .inr (.inl ⟨hp, rfl⟩)

/-- What the block's step can do, said once. -/
theorem blockStep_cases (s : State) :
    (s.block.phase ≠ .run ∧ s.blockStep = s) ∨
    (s.block.phase = .run ∧ s.block.cur.toNat = 0 ∧ s.blockStep = s.setPhase .done) ∨
    (s.block.phase = .run ∧ 0 < s.block.cur.toNat ∧ s.blockStep = s.offsetStep) := by
  simp only [State.blockStep]
  cases hp : s.block.phase with
  | idle => simp
  | done => simp
  | run =>
    by_cases h0 : s.block.cur.toNat = 0
    · simp [h0]
    · simp [h0, Nat.pos_of_ne_zero h0]

/-- What one step does to the block: nothing, a host write, Reset, or, when it is the block's turn, a
block step. -/
theorem step_block_cases {s t : State} (h : step s = .next t) :
    t.block = s.block ∨
    (∃ tg v, s.nextEvent = some (.write tg v) ∧ t.block = (s.hostWrite tg v).block) ∨
    (s.nextEvent = some .reset ∧ t.block = s.resetBlock.block) ∨
    (s.BlockMoves ∧ t.block = s.blockStep.block) := by
  simp only [step, systemStep] at h
  split at h
  · next e rest hin =>
    have he : s.nextEvent = some e := by simp [State.nextEvent, hin]
    have hsame := State.sameBlock_setInbox s rest
    cases e with
    | write tg v =>
      cases h
      exact .inr (.inl ⟨tg, v, he, (hsame.hostWrite tg v).1⟩)
    | read tg => cases h; exact .inl rfl
    | reset => cases h; exact .inr (.inr (.inl ⟨he, hsame.resetBlock.1⟩))
    | blockStep =>
      cases h
      exact .inr (.inr (.inr ⟨.inl he, hsame.blockStep.1⟩))
    | consumerStep =>
      simp only [handle, consumerTurn] at h
      split at h
      · exact .inl ((consumerStep_block_host h).1)
      · cases h; exact .inl rfl
    | assemble => cases h; exact .inl rfl
    | load ref n stream => cases h; exact .inl rfl
  · next hin =>
    have he : s.nextEvent = none := by simp [State.nextEvent, hin]
    split at h
    · exact .inl (consumerStep_block_host h).1
    · next hv => cases h; exact .inr (.inr (.inr ⟨.inr ⟨he, hv⟩, rfl⟩))

end Sys2Proof.Machine
end

