-- ==== Sys2Proof/Laws/Commit.lean ====
section
/-! SUPPORT. The registers a commit reads, and what the tables read as after it (41_cost_builder.md
R123). -/

namespace Sys2Proof.Machine

open Sys2Proof

/-! ## TB and TL, whatever the state -/

/-- TL counts valid bytes of TB, and at most TOKCAP. -/
abbrev Work.TokenFits (w : Work) : Prop := w.tl.toNat ≤ w.tb.length ∧ w.tl.toNat ≤ Config.TOKCAP

theorem putToken_fits (w : Work) {t : List Byte} (h : t.length ≤ 75) : (w.putToken t).TokenFits := by
  refine ⟨?_, ?_⟩
  · rw [putToken_tl_toNat w (by omega)]; simp
  · rw [putToken_tl_toNat w (by omega)]; exact h

theorem adopt_fits {w : Work} (h : w.TokenFits) (total : Word) (len : Nat) {t : List Byte}
    (ht : t.length ≤ 75) : (w.adopt total len t).TokenFits := by
  by_cases hlt : total < w.c
  · rw [adopt_of_lt hlt]
    exact putToken_fits _ ht
  · rw [adopt_of_not_lt hlt]; exact h

theorem scanAddress_fits (s : State) {w : Work} (h : w.TokenFits) (j : Nat) :
    (s.scanAddress w j).TokenFits := by
  have hat : (s.atAddress w j).TokenFits := by
    simpa [State.atAddress, State.setRun, Work.TokenFits] using h
  rw [scanAddress_eq]
  split
  · exact hat
  · have hlim : (s.atAddress w j).lim.toNat ≤ 64 := by
      have := msLim_le s w.i.toNat (BitVec.ofNat 18 j).toNat
      simp only [State.atAddress, State.setRun, msBest_lim, BitVec.toNat_ofNat] at this ⊢
      omega
    refine foldl_invariant Work.TokenFits _ _ _ hat (fun v hv k hk => ?_)
    simp only [List.mem_range'_1] at hk
    simp only [State.scanLength, State.cbTryApprox]
    apply adopt_fits
    · exact hv
    have hd : s.msDiffs v.i.toNat v.j.toNat (BitVec.ofNat 7 k).toNat ≤ (BitVec.ofNat 7 k).toNat :=
      Nat.le_trans List.countP_le_length (by simp)
    have hk' : (BitVec.ofNat 7 k).toNat ≤ 64 := by simp only [BitVec.toNat_ofNat]; omega
    simp only [teApprox_length, msAsize, Config.HDR_SIZE, ceil8_eq]
    omega

/-- At the end of an offset step TB holds TL valid bytes, at most 75. -/
theorem offsetWork_fits (s : State) : s.offsetWork.TokenFits := by
  refine foldl_invariant Work.TokenFits _ _ _ (foldl_invariant Work.TokenFits _ _ _ ?_
    (fun w hw j _ => scanAddress_fits s hw j)) (fun w hw len _ => adopt_fits hw _ _ (by simp))
  exact putToken_fits (t := s.teLit1 _) _ (by simp)

/-! ## The commit -/

/-- What the tables read as after a commit: entry `I` as committed, every other entry as before
where it was written (R123). -/
theorem cbCommit_reads (s : State) (w : Work) (a : Nat) :
    Memory.read (s.cbCommit w).block.cost a =
      (if w.i.toNat = a then some w.c else Memory.read s.block.cost a) ∧
    Memory.read (s.cbCommit w).block.trans a =
      (if w.i.toNat = a then some w.t else Memory.read s.block.trans a) ∧
    Memory.read (s.cbCommit w).block.toklen a =
      (if w.i.toNat = a then some w.tl else Memory.read s.block.toklen a) ∧
    Memory.read (s.cbCommit w).block.tok a =
      (if tokKey w.i.toNat 0 ≤ a ∧ a < tokKey w.i.toNat 0 + (w.tb.take w.tl.toNat).length
        then (w.tb.take w.tl.toNat)[a - tokKey w.i.toNat 0]? else Memory.read s.block.tok a) := by
  refine ⟨?_, ?_, ?_, ?_⟩
  · simp [Memory.read_write]
  · simp [Memory.read_write]
  · simp [Memory.read_write]
  · simp only [State.cbCommit_block_tok, Memory.read_writeAll]

/-- The committed entry, when TB holds the TL valid bytes. -/
theorem cbCommit_entry (s : State) (w : Work) (h : w.tl.toNat ≤ w.tb.length) :
    (s.cbCommit w).costEntry w.i.toNat = w.c ∧ (s.cbCommit w).transEntry w.i.toNat = w.t ∧
    (s.cbCommit w).toklenEntry w.i.toNat = w.tl ∧
    (s.cbCommit w).token w.i.toNat = w.tb.take w.tl.toNat ∧
    (s.cbCommit w).EntryWritten w.i.toNat := by
  obtain ⟨h1, h2, h3, -⟩ := cbCommit_reads s w w.i.toNat
  simp only [if_true] at h1 h2 h3
  have htl : (s.cbCommit w).toklenEntry w.i.toNat = w.tl := by simp only [Option.getD_some, State.toklenEntry, h3]
  have htok : ∀ b, b < w.tl.toNat →
      Memory.read (s.cbCommit w).block.tok (tokKey w.i.toNat b) = w.tb[b]? := by
    intro b hb
    rw [(cbCommit_reads s w (tokKey w.i.toNat b)).2.2.2]
    have : (w.tb.take w.tl.toNat).length = w.tl.toNat := by simp; omega
    simp only [tokKey, this]
    rw [if_pos (by omega), show Config.TOKCAP * w.i.toNat + b - (Config.TOKCAP * w.i.toNat + 0) = b
      by omega, List.getElem?_take_of_lt hb]
  refine ⟨by simp only [Option.getD_some, State.costEntry, h1], by simp only [Option.getD_some, State.transEntry, h2], htl, ?_, ?_⟩
  · refine List.ext_getElem? (fun b => ?_)
    simp only [State.token, htl]
    by_cases hb : b < w.tl.toNat
    · rw [List.getElem?_take_of_lt hb, List.getElem?_map, List.getElem?_range hb]
      have hlt : b < w.tb.length := by omega
      simp only [Option.getD_some, State.tokByte, htok b hb, List.getElem?_eq_getElem hlt, Option.map_some]
    · rw [List.getElem?_eq_none (by simp; omega), List.getElem?_eq_none (by simp; omega)]
  · refine ⟨by rw [h1]; rfl, by rw [h2]; rfl, by rw [h3]; rfl, fun b hb => ?_⟩
    rw [htl] at hb
    rw [htok b hb]
    simp; omega

/-- A written entry a commit of another offset does not touch reads as before. -/
theorem cbCommit_other (s : State) (w : Work) {i : Nat} (hne : w.i.toNat ≠ i)
    (hw : s.EntryWritten i) (hlen : w.tl.toNat ≤ 75) (hl : (s.toklenEntry i).toNat ≤ 75) :
    (s.cbCommit w).costEntry i = s.costEntry i ∧ (s.cbCommit w).transEntry i = s.transEntry i ∧
    (s.cbCommit w).toklenEntry i = s.toklenEntry i ∧ (s.cbCommit w).token i = s.token i ∧
    (s.cbCommit w).EntryWritten i := by
  obtain ⟨h1, h2, h3, -⟩ := cbCommit_reads s w i
  simp only [if_neg hne] at h1 h2 h3
  obtain ⟨w1, w2, w3, w4⟩ := hw
  obtain ⟨x1, e1⟩ := Option.isSome_iff_exists.1 w1
  obtain ⟨x2, e2⟩ := Option.isSome_iff_exists.1 w2
  obtain ⟨x3, e3⟩ := Option.isSome_iff_exists.1 w3
  have htl : (s.cbCommit w).toklenEntry i = s.toklenEntry i := by
    simp only [Option.getD_some, State.toklenEntry, h3, e3]
  have htok : ∀ b, b < (s.toklenEntry i).toNat →
      Memory.read (s.cbCommit w).block.tok (tokKey i b) = Memory.read s.block.tok (tokKey i b) := by
    intro b hb
    rw [(cbCommit_reads s w (tokKey i b)).2.2.2, if_neg]
    have : (w.tb.take w.tl.toNat).length ≤ w.tl.toNat := by simp
    have : Config.TOKCAP = 75 := rfl
    simp only [tokKey, this]
    omega
  refine ⟨by simp only [Option.getD_some, State.costEntry, h1, e1], by simp only [Option.getD_some, State.transEntry, h2, e2], htl, ?_,
    by rw [h1]; exact w1, by rw [h2]; exact w2, by rw [h3]; exact w3, ?_⟩
  · simp only [State.token, htl]
    refine List.map_congr_left (fun b hb => ?_)
    have hb := List.mem_range.1 hb
    obtain ⟨x, e⟩ := Option.isSome_iff_exists.1 (w4 b hb)
    simp only [Option.getD_some, State.tokByte, htok b hb, e]
  · intro b hb
    rw [htl] at hb
    rw [htok b hb]
    exact w4 b hb

end Sys2Proof.Machine
end

