-- ==== Sys2Proof/Laws/PerInstr.lean ====
section
/-! SUPPORT. The per-instruction family `EncodedLength`: a well-formed token has 2 to 75 bytes
(30_encoding.md R60, R75). -/

namespace Sys2Proof.Laws

open Sys2Proof

/-- A well-formed token has at least 2 bytes and at most those of the longest token. -/
def EncodedLength.Statement (i : Instr) : Prop :=
  i.wellFormed = true → 2 ≤ (encode i).length ∧ (encode i).length ≤ longestToken

theorem EncodedLength.lit1 (x : Byte) : EncodedLength.Statement (.lit1 x) :=
  fun _ => by simp [longestToken]

theorem EncodedLength.lit2 (x0 x1 : Byte) : EncodedLength.Statement (.lit2 x0 x1) :=
  fun _ => by simp [longestToken]

theorem EncodedLength.exactMatch (len : Nat) (addr : RefAddr) :
    EncodedLength.Statement (.exactMatch len addr) := fun _ => by simp [longestToken]

theorem EncodedLength.approxMatch (len : Nat) (addr : RefAddr) (bitmap patches : List Byte) :
    EncodedLength.Statement (.approxMatch len addr bitmap patches) := by
  intro h
  obtain ⟨_, h64, hb, hp⟩ := approx_wellFormed.1 h
  have := popcounts_le bitmap
  rw [encode_approx_length, hp, hb]
  rw [hb] at this
  rw [ceil8_eq] at *
  simp only [longestToken]
  omega

end Sys2Proof.Laws
end

