-- ==== Sys2Proof/Tests/Slice0.lean ====
section
/-! SUPPORT. Tests: each check of WellFormed refuses an ill-formed term; words written out from the
spec's encodings decode to their tokens; one step on small states, with results taken from
spec/95_test_vectors.md; and for every statement with hypotheses a state and operands that meet
them. -/

namespace Sys2Proof.Tests

open Sys2Proof Sys2Proof.Machine

/-! ## WellFormed -/

theorem test_wf_exact_length_0_refused : (Instr.exactMatch 0 0).wellFormed = false := by decide
theorem test_wf_exact_length_64_refused : (Instr.exactMatch 64 0).wellFormed = false := by decide
theorem test_wf_approx_length_0_refused : (Instr.approxMatch 0 0 [] []).wellFormed = false := by
  decide
theorem test_wf_approx_length_65_refused :
    (Instr.approxMatch 65 0 (List.replicate 9 0) []).wellFormed = false := by decide
theorem test_wf_bitmap_size_refused : (Instr.approxMatch 8 0 [0, 0] []).wellFormed = false := by
  decide
theorem test_wf_patch_count_refused : (Instr.approxMatch 8 0 [0x10] []).wellFormed = false := by
  decide

/-! ## Words written out from the spec's encodings -/

/-- 95_test_vectors.md V3. -/
theorem test_decode_lit1 : decode [0x00, 0xFF] = .ok (.lit1 0xFF, []) := by decide
/-- 30_encoding.md R62. -/
theorem test_decode_lit2 : decode [0x01, 0x12, 0x34] = .ok (.lit2 0x12 0x34, []) := by decide
/-- V4: length 1, address bit 16. -/
theorem test_decode_exact_high : decode [0x03, 0x00, 0x00] = .ok (.exactMatch 1 0x10000, []) := by
  decide
/-- V4. -/
theorem test_decode_exact : decode [0x06, 0x05, 0x00] = .ok (.exactMatch 3 5, []) := by decide
/-- V5: AH = 1. -/
theorem test_decode_approx_high :
    decode [0x87, 0x00, 0x00, 0x04, 0xBE] = .ok (.approxMatch 4 0x10000 [0x04] [0xBE], []) := by
  decide
/-- V5: a zero second bitmap byte is present. -/
theorem test_decode_approx_two_bitmap_bytes :
    decode [0x92, 0x02, 0x00, 0x82, 0x00, 0x23, 0xFF] =
      .ok (.approxMatch 10 2 [0x82, 0x00] [0x23, 0xFF], []) := by decide
/-- V15: the stream ends inside the token. -/
theorem test_decode_truncated : decode [0x8E, 0x00, 0x00, 0x10] = .error .truncated := by decide

/-- The rows of opcode_table.json, tag alone: LIT1, LIT2, EXACT (`0LLLLLLa`), APPROX (`1lllllla`). -/
theorem test_table_word_lit1 : decodeTableWord 8 0x00 = some (.lit1 0) := by decide
theorem test_table_word_lit2 : decodeTableWord 8 0x01 = some (.lit2 0 0) := by decide
theorem test_table_word_exact : decodeTableWord 8 0x7F = some (.exactMatch 63 0x10000) := by decide
theorem test_table_word_approx :
    decodeTableWord 8 0x80 = some (.approxMatch 1 0 [0] []) := by decide

/-! ## Small states -/

/-- `REF` of scenarios 1 and 2. -/
def ref8 : List Byte := [1, 2, 3, 4, 5, 6, 7, 8]

/-- `TGT` of scenario 2. -/
def tgt8 : List Byte := [1, 2, 3, 4, 9, 6, 7, 8]

/-- A consumer of scenario 2 at cursor `o`, with a stream and pending events. -/
def consAt (n o : Nat) (stream : List Byte) (inbox : List Event) : State :=
  { State.reset with
    cons := { ref := Memory.writeAll [] 0 ref8, n := n, stream := stream, out := [], o := o,
              verdict := .decoding }
    host := { inbox := inbox, rdata := 0, asm := .idle } }

/-- The block with inputs loaded, in a phase, with a cursor, and pending events. -/
def blockAt (phase : Phase) (n cur : Nat) (ref tgt : List Byte) (inbox : List Event) : State :=
  { State.reset with
    block := { State.reset.block with
      phase := phase
      nlen := BitVec.ofNat 18 n
      cur := BitVec.ofNat 18 cur
      ref := Memory.writeAll [] 0 ref
      tgt := Memory.writeAll [] 0 tgt }
    host := { inbox := inbox, rdata := 0, asm := .idle } }

/-- The block in the middle of a run of length 2: CUR is 1, and the entry of offset 1 is final
(`LIT1 0B` over REF `01 02`, TGT `01 09`). -/
def midRun (inbox : List Event) : State :=
  { blockAt .run 2 1 [1, 2] [1, 9] inbox with
    block := { (blockAt .run 2 1 [1, 2] [1, 9] inbox).block with
      cost := [(1, 2), (2, 0)]
      trans := [(1, 2)]
      toklen := [(1, 2)]
      tok := [(75, 0x00), (76, 0x0B)] } }

/-- The block after a run of length 1 over REF `05`, TGT `09` (V3: `LIT1 0C`). -/
def doneOne (inbox : List Event) : State :=
  { blockAt .done 1 0 [5] [9] inbox with
    block := { (blockAt .done 1 0 [5] [9] inbox).block with
      cost := [(0, 2), (1, 0)]
      trans := [(0, 1)]
      toklen := [(0, 2)]
      tok := [(0, 0x00), (1, 0x0C)] } }

/-- What a test looks at of a step of the consumer: verdict, cursor, OUT. -/
def consumerOf : Host.Outcome State Fault Refusal → Option (Verdict × Nat × Memory 8)
  | .next t => some (t.cons.verdict, t.cons.o, t.cons.out)
  | .fault _ => none
  | .refused _ => none

/-! ## One step of the consumer (95_test_vectors.md V15) -/

theorem test_lit1_step : consumerOf (step (consAt 8 4 [0x00, 0x0C] [])) =
    some (.decoding, 5, [(4, 0x09)]) := by decide
theorem test_lit1_overrun : consumerOf (step (consAt 8 8 [0x00, 0x0C] [])) =
    some (.failed .overrun, 8, []) := by decide
theorem test_lit2_step : consumerOf (step (consAt 8 0 [0x01, 0x00, 0x00] [])) =
    some (.failed .lit2, 0, []) := by decide
theorem test_exact_step : consumerOf (step (consAt 8 5 [0x06, 0x05, 0x00] [])) =
    some (.decoding, 8, [(5, 6), (6, 7), (7, 8)]) := by decide
theorem test_exact_past_reference : consumerOf (step (consAt 8 0 [0x06, 0x06, 0x00] [])) =
    some (.failed .refWindow, 0, []) := by decide
theorem test_approx_step : consumerOf (step (consAt 8 0 [0x8E, 0x00, 0x00, 0x10, 0x0C] [])) =
    some (.decoding, 8, [(0, 1), (1, 2), (2, 3), (3, 4), (4, 9), (5, 6), (6, 7), (7, 8)]) := by
  decide
/-- Position 2 lies outside a window of length 2 (20_memory.md R42, U4). -/
theorem test_approx_pad_bit : consumerOf (step (consAt 8 0 [0x82, 0x00, 0x00, 0x04, 0x01] [])) =
    some (.failed .padBit, 0, []) := by decide
/-- A table word placed where the next step fetches: EXACT 1 @00000 leaves `o` at 1. -/
theorem test_with_fetch_word :
    (consumerOf (step (State.reset.withFetchWord 8 0x02))).map (fun c => c.2.1) = some 1 := by
  decide

/-! ## The block -/

/-- V1: scenario 2, the runs and bounds of four pairs. -/
theorem test_runlen :
    (blockAt .run 8 8 ref8 tgt8 []).msRunlen 0 0 = 4 ∧
    (blockAt .run 8 8 ref8 tgt8 []).msRunlen 3 3 = 1 ∧
    (blockAt .run 8 8 ref8 tgt8 []).msLim 3 3 = 5 ∧
    (blockAt .run 8 8 ref8 tgt8 []).msRunlen 5 5 = 3 := by decide
/-- V5: scenario 2, `TE.APPROX(3, 3, 5)`. -/
theorem test_te_approx :
    (blockAt .run 8 8 ref8 tgt8 []).teApprox 3 3 5 = [0x88, 0x03, 0x00, 0x02, 0x0C] := by decide
/-- V14, rows 5 to 7: NLEN = 0x20001, START refused, STATUS reads 4. -/
theorem test_illegal_start :
    ((State.reset.hostWrite ⟨0, 2, 0⟩ 0x20001).hostWrite ⟨0, 0, 0⟩ 1).hostReadValue ⟨0, 1, 0⟩ = 4 := by
  decide
/-- 43_control_and_host.md R151: NLEN = 8, START; STATUS reads 1, CUR reads 8. -/
theorem test_start :
    (((State.reset.hostWrite ⟨0, 2, 0⟩ 8).hostWrite ⟨0, 0, 0⟩ 1).hostReadValue ⟨0, 1, 0⟩,
      ((State.reset.hostWrite ⟨0, 2, 0⟩ 8).hostWrite ⟨0, 0, 0⟩ 1).hostReadValue ⟨0, 3, 0⟩) =
    (1, 8) := by decide
/-- V8, C3: N = 1, REF = TGT = `01`: the literal `00 00` of cost 2, not the 3-byte exact match. -/
theorem test_one_byte_run :
    ((blockAt .idle 1 0 [1] [1] []).finished.block.cost,
      (blockAt .idle 1 0 [1] [1] []).finished.block.tok) =
    ([(0, 2), (1, 0)], [(0, 0x00), (1, 0x00)]) := by decide
/-- The read-out walk of that kind of table (R166). -/
theorem test_assemble : (doneOne []).walkResult = .stream [0x00, 0x0C] := by decide

/-! ## A state and operands for the hypotheses of each statement -/

/-- DecodeOfEncodeIsTheToken, TokenLengthFromItsOwnBytes: each constructor, the lengths at both
ends. -/
theorem test_witness_well_formed :
    (Instr.lit1 0).wellFormed = true ∧ (Instr.lit2 0 0).wellFormed = true ∧
    (Instr.exactMatch 1 0).wellFormed = true ∧ (Instr.exactMatch 63 0x1FFFF).wellFormed = true ∧
    (Instr.approxMatch 1 0 [0] []).wellFormed = true ∧
    (Instr.approxMatch 64 0x1FFFF (List.replicate 8 0xFF) (List.replicate 64 0)).wellFormed = true := by
  decide

/-- EncodeOfDecodeIsTheBytes. -/
theorem test_witness_EncodeOfDecodeIsTheBytes :
    decode [0x84, 0x05, 0x00, 0x00, 0x00] = .ok (.approxMatch 3 5 [0x00] [], [0x00]) := by decide

/-- TagAloneSelectsTheFormat: 74 bytes after each boundary tag. -/
theorem test_witness_TagAloneSelectsTheFormat :
    74 ≤ (List.replicate 74 (0 : Byte)).length ∧
    (0x00 : Byte).toNat = 0x00 ∧ (0x01 : Byte).toNat = 0x01 ∧
    0x02 ≤ (0x02 : Byte).toNat ∧ (0x7F : Byte).toNat ≤ 0x7F ∧ 0x80 ≤ (0x80 : Byte).toNat := by decide

/-- TagPairsAreInverse: the end points of both tag ranges and both length ranges. -/
theorem test_witness_TagPairsAreInverse :
    ((1 : Nat) ≤ 1 ∧ (63 : Nat) ≤ 63) ∧ ((1 : Nat) ≤ 64 ∧ (64 : Nat) ≤ 64) ∧
    (0x02 ≤ (0x02 : Byte).toNat ∧ (0x02 : Byte).toNat ≤ 0x7F) ∧
    (0x02 ≤ (0x7F : Byte).toNat ∧ (0x7F : Byte).toNat ≤ 0x7F) ∧ 0x80 ≤ (0xFF : Byte).toNat := by
  decide

/-- StepRunsTheDecodedToken: both clauses. -/
theorem test_witness_StepRunsTheDecodedToken :
    (consAt 8 4 [0x00, 0x0C] []).cons.verdict = .decoding ∧
    decode (consAt 8 4 [0x00, 0x0C] []).cons.stream = .ok (.lit1 0x0C, []) ∧
    (consAt 8 4 [0x00, 0x0C] []).host.inbox = [] ∧
    (consAt 8 4 [0x00, 0x0C] [.consumerStep]).host.inbox = .consumerStep :: [] := by decide

/-- Lit1XorsTheReferenceByte: the last offset. -/
theorem test_witness_Lit1XorsTheReferenceByte :
    (consAt 8 7 [] []).cons.o < (consAt 8 7 [] []).cons.n := by decide

/-- ExactCopiesFromTheReference: both windows end at `N`. -/
theorem test_witness_ExactCopiesFromTheReference :
    (consAt 8 5 [] []).cons.o + 3 ≤ (consAt 8 5 [] []).cons.n ∧
    (5 : RefAddr).toNat + 3 ≤ (consAt 8 5 [] []).cons.n := by decide

/-- ApproxCopiesAndPatches: both windows end at `N`; one patch. -/
theorem test_witness_ApproxCopiesAndPatches :
    (Instr.approxMatch 8 0 [0x10] [0x0C]).wellFormed = true ∧ padBits 8 [0x10] = false ∧
    (consAt 8 0 [] []).cons.o + 8 ≤ (consAt 8 0 [] []).cons.n ∧
    (0 : RefAddr).toNat + 8 ≤ (consAt 8 0 [] []).cons.n := by decide

/-- Lit2IsRejectedAndNeverBuilt: a candidate. -/
theorem test_witness_Lit2IsRejectedAndNeverBuilt :
    (midRun []).literalCandidate 0 ∈ (midRun []).candidates 0 := List.mem_cons_self

/-- WritePastTheEndFails: `o = N` for the literal, one byte too long for the matches. -/
theorem test_witness_WritePastTheEndFails :
    (consAt 8 8 [] []).cons.n ≤ (consAt 8 8 [] []).cons.o ∧
    (consAt 8 6 [] []).cons.n < (consAt 8 6 [] []).cons.o + 3 := by decide

/-- BadWindowsAndPadBitsAreRejected: the target window ends at `N`, the reference window one past
it; and a bad bit with both windows inside. -/
theorem test_witness_BadWindowsAndPadBitsAreRejected :
    (consAt 8 5 [] []).cons.o + 3 ≤ (consAt 8 5 [] []).cons.n ∧
    (consAt 8 5 [] []).cons.n < (6 : RefAddr).toNat + 3 ∧
    (5 : RefAddr).toNat + 3 ≤ (consAt 8 5 [] []).cons.n ∧ padBits 3 [0x08] = true := by decide

/-- EndOfStreamVerdict: an empty stream at `o = N` and before it, and a truncated one. -/
theorem test_witness_EndOfStreamVerdict :
    ((consAt 8 8 [] []).host.inbox = [] ∧ (consAt 8 8 [] []).cons.verdict = .decoding ∧
      decode (consAt 8 8 [] []).cons.stream = .error .endOfStream ∧
      (consAt 8 8 [] []).cons.o = (consAt 8 8 [] []).cons.n) ∧
    (consAt 8 7 [] []).cons.o ≠ (consAt 8 7 [] []).cons.n ∧
    decode (consAt 8 7 [0x00] []).cons.stream = .error .truncated := by decide

/-- TokensChangeOnlyOutputAndCursor: a token that writes, and addresses on both sides. -/
theorem test_witness_TokensChangeOnlyOutputAndCursor :
    ∃ t, exec (.lit1 0x0C) (consAt 8 4 [] []) = .next t ∧
      (3 < (consAt 8 4 [] []).cons.o ∧ t.cons.o ≤ 5) := ⟨_, rfl, by decide⟩

/-- RenderedTokensDecode: the lengths at both ends and the last address. -/
theorem test_witness_RenderedTokensDecode :
    ((1 : Nat) ≤ 63 ∧ (63 : Nat) ≤ 63) ∧ ((1 : Nat) ≤ 64 ∧ (64 : Nat) ≤ 64) ∧
    0x1FFFF < Config.NMAX := by decide

/-- RunLengthIsTheLongest: the bound itself, where the run stops before it and where it does not. -/
theorem test_witness_RunLengthIsTheLongest :
    8 ≤ (blockAt .run 8 8 ref8 tgt8 []).msLim 0 0 ∧
    3 ≤ (blockAt .run 8 8 ref8 tgt8 []).msLim 5 5 := by decide

/-- BoundAtAPairOfOffsets: an inner pair, and the last offset of each buffer. -/
theorem test_witness_BoundAtAPairOfOffsets :
    (0 < (blockAt .run 8 8 [] [] []).n ∧ 7 < (blockAt .run 8 8 [] [] []).n) ∧
    7 = (blockAt .run 8 8 [] [] []).n - 1 := by decide

/-- MismatchesOfAnExtension: `k = M` and `k = LIM`. -/
theorem test_witness_MismatchesOfAnExtension :
    0 < (blockAt .run 8 8 ref8 tgt8 []).msRunlen 0 0 ∧
    (blockAt .run 8 8 ref8 tgt8 []).msRunlen 0 0 ≤ 4 ∧
    8 ≤ (blockAt .run 8 8 ref8 tgt8 []).msLim 0 0 := by decide

/-- ApproxTokenSize: the corners of the operands, and a pair of offsets. -/
theorem test_witness_ApproxTokenSize :
    ((1 : Nat) ≤ 1 ∧ (1 : Nat) ≤ 64 ∧ 0 ≤ 63) ∧ ((1 : Nat) ≤ 64 ∧ (64 : Nat) ≤ 64 ∧ (63 : Nat) ≤ 63) ∧
    0 < (blockAt .run 8 8 ref8 tgt8 []).msRunlen 3 3 ∧
    (blockAt .run 8 8 ref8 tgt8 []).msRunlen 3 3 ≤ 5 ∧
    5 ≤ (blockAt .run 8 8 ref8 tgt8 []).msLim 3 3 := by decide

/-- ScanFindsTheBestPair: a scan of the last offset that finds a run, and one that finds none. -/
theorem test_witness_ScanFindsTheBestPair :
    (blockAt .run 2 2 [1, 2] [1, 2] []).n ≤ Config.NMAX ∧
    0 < ((blockAt .run 2 2 [1, 2] [1, 2] []).msScan { Work.zero with i := 1 }).bestM.toNat ∧
    ((blockAt .run 2 2 [1, 2] [1, 9] []).msScan { Work.zero with i := 1 }).bestM.toNat = 0 ∧
    ({ Work.zero with i := 1 } : Work).i.toNat < (blockAt .run 2 2 [1, 2] [1, 9] []).n := by decide

/-- OffsetStepCommitsTheFirstMinimum, OffsetStepWritesOneEntry: the last offset step of a run. -/
theorem test_witness_offset_step :
    (midRun []).block.phase = .run ∧ (midRun []).n ≤ Config.NMAX ∧
    0 < (midRun []).block.cur.toNat ∧ (midRun []).block.cur.toNat ≤ (midRun []).n ∧
    (midRun []).CostsBounded ((midRun []).block.cur.toNat - 1) := by
  refine ⟨by decide, by decide, by decide, by decide, fun o h1 h2 => ?_⟩
  have h1 : o ≤ 2 := h1
  have h2 : 0 < o := h2
  interval_cases o <;> decide

/-- RunIsExactlyNOffsetSteps: the empty run and the longest one. -/
theorem test_witness_RunIsExactlyNOffsetSteps :
    ((blockAt .idle 0 0 [] [] []).block.phase ≠ .run ∧ (blockAt .idle 0 0 [] [] []).n ≤ Config.NMAX) ∧
    (blockAt .done 0x20000 0 [] [] []).block.phase ≠ .run ∧
    (blockAt .done 0x20000 0 [] [] []).n ≤ Config.NMAX ∧
    0x20000 ≤ (blockAt .done 0x20000 0 [] [] []).n := by decide

/-- The statements about a finished run (ForwardProgress to StreamDecodesToTheTarget): inputs of
length 2 loaded, the last offset below `N`. -/
theorem test_witness_ready :
    (blockAt .idle 2 0 [1, 2] [1, 9] []).Ready ∧ 1 < (blockAt .idle 2 0 [1, 2] [1, 9] []).n := by
  refine ⟨⟨by decide, by decide, fun a h => ?_⟩, by decide⟩
  have h : a < 2 := h
  interval_cases a <;> decide

/-- MatchWindowsStayInside: an entry whose token is a match. -/
theorem test_witness_MatchWindowsStayInside :
    ({ blockAt .done 2 0 [1, 2] [1, 2] [] with
        block := { (blockAt .done 2 0 [1, 2] [1, 2] []).block with
          toklen := [(0, 3)], tok := [(0, 0x04), (1, 0x00), (2, 0x00)] } } : State).tokenInstr 0 =
      some (.exactMatch 2 0) ∧ matchWindow (.exactMatch 2 0) = some (2, 0) := by decide

/-- TablesDependOnTheInputsAlone: two states that agree on the inputs over `[0, N)` and differ
beyond, in the phase and in the counter of free values. -/
theorem test_witness_TablesDependOnTheInputsAlone :
    (blockAt .idle 1 0 [5] [9] []).Ready ∧ ({ doneOne [.reset] with fresh := 7 } : State).Ready ∧
    (blockAt .idle 1 0 [5] [9] []).n = ({ doneOne [.reset] with fresh := 7 } : State).n ∧
    (∀ a, a < 1 → Memory.read (blockAt .idle 1 0 [5] [9] []).block.ref a =
        Memory.read (doneOne [.reset]).block.ref a ∧
      Memory.read (blockAt .idle 1 0 [5] [9] []).block.tgt a =
        Memory.read (doneOne [.reset]).block.tgt a) := by
  refine ⟨⟨by decide, by decide, fun a h => ?_⟩, ⟨by decide, by decide, fun a h => ?_⟩, by decide,
    fun _ _ => ⟨rfl, rfl⟩⟩
  all_goals
    have h : a < 1 := h
    interval_cases a
    decide

/-- TablesInvariantIsKept: a state in DONE with one final entry, and a host write it steps on. -/
theorem test_witness_TablesInvariantIsKept :
    (doneOne [.write ⟨1, 0, 0⟩ 7]).TablesInv ∧
    ∃ t, step (doneOne [.write ⟨1, 0, 0⟩ 7]) = .next t ∧ t.block.phase = .idle := by
  refine ⟨fun _ => ⟨by decide, by decide, fun _ => by decide, by decide, fun _ i _ h => ?_⟩,
    _, rfl, by decide⟩
  have h : i < 1 := h
  interval_cases i
  refine ⟨⟨by decide, by decide, by decide, fun b hb => ?_⟩, by decide, by decide, by decide,
    by decide, ?_, ?_⟩
  · have hb : b < 2 := hb
    interval_cases b <;> decide
  · intro ins len addr h1 h2
    have h1 : some (Instr.lit1 0x0C) = some ins := h1
    cases h1
    cases h2
  · refine ⟨.lit1 0x0C, by decide, fun c hr hn ho => ?_⟩
    have hn : c.cons.n = 1 := hn
    have hr : c.cons.ref = [(0, 5)] := hr
    refine ⟨(c.emit [0x09]).refresh, ?_, ?_, rfl, fun a => ?_⟩
    · simp [exec, execLit1, hn, ho, State.consRefByte, hr, Memory.read]
    · simp [State.emit, State.refresh, ho]; rfl
    · have htr : ((doneOne [.write ⟨1, 0, 0⟩ 7]).transEntry 0).toNat = 1 := by decide
      have htg : (doneOne [.write ⟨1, 0, 0⟩ 7]).tgtByte 0 = 0x09 := by decide
      simp only [State.emit, State.refresh, ho, Memory.read_writeAll, htr]
      by_cases ha : a = 0
      · subst ha; simp; exact htg.symm
      · rw [if_neg (by simp; omega), if_neg (by omega)]

/-- WellFormednessIsKept: a state in RUN, with a consumer at work, and the step it takes. -/
theorem test_witness_WellFormednessIsKept :
    (midRun [.blockStep]).Wf ∧ ∃ t, step (midRun [.blockStep]) = .next t :=
  ⟨by decide, _, rfl⟩

/-- StartBeginsARun: `NLEN = NMAX`, every bit of the word set. -/
theorem test_witness_StartBeginsARun :
    (blockAt .done 0x20000 0 [] [] []).block.phase ≠ .run ∧
    (blockAt .done 0x20000 0 [] [] []).n ≤ Config.NMAX ∧ (0xFFFFFFFF : Word).getLsbD 0 = true := by
  decide

/-- IllegalStartIsRefused: `NLEN = NMAX + 1`, where the flag does change. -/
theorem test_witness_IllegalStartIsRefused :
    (blockAt .idle 0x20001 0 [] [] []).block.phase ≠ .run ∧
    Config.NMAX < (blockAt .idle 0x20001 0 [] [] []).n ∧ (1 : Word).getLsbD 0 = true ∧
    ((blockAt .idle 0x20001 0 [] [] []).hostWrite ⟨0, 0, 0⟩ 1).block.errCfg ≠
      (blockAt .idle 0x20001 0 [] [] []).block.errCfg := by decide

/-- WritesInRunAreDropped: a START with an illegal NLEN in RUN (60_exceptions.md R174). -/
theorem test_witness_WritesInRunAreDropped :
    (blockAt .run 0x20001 1 [] [] []).block.phase = .run := by decide

/-- InputWritesArePerformed: the last index of the space and the first outside. -/
theorem test_witness_InputWritesArePerformed :
    (doneOne []).block.phase ≠ .run ∧ 0x1FFFF < Config.NMAX ∧ Config.NMAX ≤ 0x20000 := by decide

/-- OtherWritesAreIgnored: a table, an index outside REF, CTRL with bit 0 clear. -/
theorem test_witness_OtherWritesAreIgnored :
    (doneOne []).block.phase ≠ .run ∧ Target.isInput ⟨3, 0, 0⟩ = false ∧
    Target.isInput ⟨1, 0x20000, 0⟩ = false ∧ Target.isInput ⟨0, 0, 0⟩ = false ∧
    ¬ ((⟨3, 0, 0⟩ : Target).space = spaceCsr ∧ (⟨3, 0, 0⟩ : Target).index = 0 ∧
      (1 : Word).getLsbD 0 = true) ∧
    ¬ ((⟨0, 0, 0⟩ : Target).space = spaceCsr ∧ (⟨0, 0, 0⟩ : Target).index = 0 ∧
      (2 : Word).getLsbD 0 = true) := by decide

/-- ControlRegistersReadAsSpecified: the first reserved number. -/
theorem test_witness_ControlRegistersReadAsSpecified : (4 : Nat) ≤ 4 := by decide

/-- BufferAndTableReads: each clause, the tables at the end of their used ranges. -/
theorem test_witness_BufferAndTableReads :
    (doneOne []).block.phase ≠ .run ∧ 0 < Config.NMAX ∧
    Memory.read (doneOne []).block.ref 0 = some 5 ∧ Memory.read (doneOne []).block.tgt 0 = some 9 ∧
    (doneOne []).block.phase = .done ∧
    (1 ≤ (doneOne []).n ∧ Memory.read (doneOne []).block.cost 1 = some 0) ∧
    (0 < (doneOne []).n ∧ Memory.read (doneOne []).block.trans 0 = some 1) ∧
    Memory.read (doneOne []).block.toklen 0 = some 2 ∧ 1 < (2 : Len).toNat ∧
    Memory.read (doneOne []).block.tok (tokKey 0 1) = some 0x0C := by decide

/-- ReadsChangeNothing, ResetClearsTheControlState, LoadingStartsAConsumer: the pending events. -/
theorem test_witness_events :
    (doneOne [.read ⟨3, 0, 0⟩]).host.inbox = .read ⟨3, 0, 0⟩ :: [] ∧
    (midRun [.reset, .blockStep]).host.inbox = .reset :: [.blockStep] ∧
    (doneOne [.load [5] 1 [0x00, 0x0C]]).host.inbox = .load [5] 1 [0x00, 0x0C] :: [] := by decide

/-- ReadOutWalkReportsBadTransitions: the event, a transition that stays, one past `N`. -/
theorem test_witness_ReadOutWalkReportsBadTransitions :
    (doneOne [.assemble]).host.inbox = .assemble :: [] ∧ 0 ≠ (doneOne []).n ∧
    (({ doneOne [] with block := { (doneOne []).block with trans := [(0, 0)] } } : State).hostReadValue
      { space := spaceTrans, index := 0 }).toNat ≤ 0 ∧
    (doneOne []).n < (({ doneOne [] with block := { (doneOne []).block with trans := [(0, 2)] } } :
      State).hostReadValue { space := spaceTrans, index := 0 }).toNat := by decide

/-- FlagsAreStickyAndRaisedOnlyByMisuse: a refused START raises ERR_CFG, a write in RUN raises
ERR_BUSYWR, and a step on a state with both flags set. -/
theorem test_witness_FlagsAreStickyAndRaisedOnlyByMisuse :
    (∃ t, step (blockAt .idle 0x20001 0 [] [] [.write ⟨0, 0, 0⟩ 1]) = .next t ∧
      t.block.errCfg = true) ∧
    (∃ t, step (midRun [.write ⟨1, 0, 0⟩ 1]) = .next t ∧ t.block.errBusyWr = true) ∧
    (midRun [.write ⟨1, 0, 0⟩ 1]).nextEvent ≠ some .reset ∧
    (∃ t, step (((blockAt .done 1 0 [] [] [.write ⟨0, 2, 0⟩ 1]).raise .cfgRange).raise .busyWrite) =
      .next t ∧ t.block.errCfg = true ∧ t.block.errBusyWr = true) :=
  ⟨⟨_, rfl, by decide⟩, ⟨_, rfl, by decide⟩, by decide, ⟨_, rfl, by decide, by decide⟩⟩

/-- PhaseChangesOnlyAsTabled: each of the four changes. -/
theorem test_witness_PhaseChangesOnlyAsTabled :
    (∃ t, step (blockAt .idle 1 0 [5] [9] [.write ⟨0, 0, 0⟩ 1]) = .next t ∧ t.block.phase = .run) ∧
    (∃ t, step (blockAt .run 1 0 [5] [9] []) = .next t ∧ t.block.phase = .done) ∧
    (∃ t, step (blockAt .run 1 0 [5] [9] [.blockStep]) = .next t ∧ t.block.phase = .done) ∧
    (∃ t, step (doneOne [.write ⟨0, 2, 0⟩ 1]) = .next t ∧ t.block.phase = .idle) ∧
    (∃ t, step (midRun [.reset]) = .next t ∧ t.block.phase = .idle) :=
  ⟨⟨_, rfl, by decide⟩, ⟨_, rfl, by decide⟩, ⟨_, rfl, by decide⟩, ⟨_, rfl, by decide⟩, ⟨_, rfl, rfl⟩⟩

/-- CursorOnlyCountsDown: a step at `CUR = N = 1`. -/
theorem test_witness_CursorOnlyCountsDown :
    ∃ t, step (blockAt .run 1 1 [5] [9] []) = .next t := ⟨_, rfl⟩

/-- CompletionStepOnlySetsDone, BlockWaitsOutsideRun: `CUR = 0` in RUN, and DONE, with no consumer. -/
theorem test_witness_completion_and_wait :
    ((blockAt .run 1 0 [5] [9] []).block.phase = .run ∧
      (blockAt .run 1 0 [5] [9] []).block.cur.toNat = 0 ∧
      (blockAt .run 1 0 [5] [9] []).host.inbox = [] ∧
      (blockAt .run 1 0 [5] [9] []).cons.verdict ≠ .decoding) ∧
    (doneOne []).block.phase ≠ .run ∧ (doneOne []).host.inbox = [] ∧
    (doneOne []).cons.verdict ≠ .decoding := by decide

/-- InputsAreImmutableDuringARun: a write in RUN, and no write in DONE. -/
theorem test_witness_InputsAreImmutableDuringARun :
    (∃ t, step (midRun [.write ⟨1, 0, 0⟩ 1]) = .next t) ∧
    (midRun [.write ⟨1, 0, 0⟩ 1]).nextEvent ≠ some .reset ∧
    (midRun [.write ⟨1, 0, 0⟩ 1]).block.phase = .run ∧
    ∀ tg v, (doneOne [.blockStep]).nextEvent ≠ some (.write tg v) :=
  ⟨⟨_, rfl⟩, by decide, by decide, fun _ _ h => by cases h⟩

/-- StepPerformsTheHostWrite: a START, and a write in RUN. -/
theorem test_witness_StepPerformsTheHostWrite :
    (doneOne [.write ⟨0, 0, 0⟩ 1, .blockStep]).host.inbox = .write ⟨0, 0, 0⟩ 1 :: [.blockStep] ∧
    (midRun [.write ⟨1, 0, 0⟩ 7]).host.inbox = .write ⟨1, 0, 0⟩ 7 :: [] := by decide

/-- StepTakesTheBlockStep: each clause, `CUR` at 1 and at 0. -/
theorem test_witness_StepTakesTheBlockStep :
    ((midRun []).host.inbox = [] ∧ (midRun []).cons.verdict ≠ .decoding) ∧
    (midRun [.blockStep]).host.inbox = .blockStep :: [] ∧
    ((midRun []).block.phase = .run ∧ 0 < (midRun []).block.cur.toNat ∧
      (midRun []).block.cur.toNat ≤ 1) ∧
    ((blockAt .run 1 0 [5] [9] []).block.phase = .run ∧
      (blockAt .run 1 0 [5] [9] []).block.cur.toNat = 0) ∧
    (doneOne []).block.phase ≠ .run := by decide

/-- ConsumerTurnAtItsEvent: each clause, `o` at `N` and one below it. -/
theorem test_witness_ConsumerTurnAtItsEvent :
    ((midRun [.consumerStep]).host.inbox = .consumerStep :: [] ∧
      (midRun [.consumerStep]).cons.verdict ≠ .decoding) ∧
    ((consAt 8 8 [] [.consumerStep]).host.inbox = .consumerStep :: [] ∧
      (consAt 8 8 [] [.consumerStep]).cons.verdict = .decoding ∧
      decode (consAt 8 8 [] [.consumerStep]).cons.stream = .error .endOfStream ∧
      (consAt 8 8 [] [.consumerStep]).cons.o = (consAt 8 8 [] [.consumerStep]).cons.n) ∧
    (consAt 8 7 [] [.consumerStep]).cons.o ≠ (consAt 8 7 [] [.consumerStep]).cons.n ∧
    decode (consAt 8 7 [0x00] [.consumerStep]).cons.stream = .error .truncated := by decide

end Sys2Proof.Tests
end

section
/-! PROOFS. A run leaves `N` as it is. -/

namespace Sys2Proof.Machine

open Sys2Proof

theorem blockSteps_succ (k : Nat) (s : State) :
    State.blockSteps (k + 1) s = State.blockSteps k s.blockStep := rfl

@[simp] theorem start_n (s : State) : s.start.n = s.n := by
  rw [State.start]; split <;> rfl

@[simp] theorem blockStep_n (s : State) : s.blockStep.n = s.n := by
  rcases blockStep_cases s with ⟨-, he⟩ | ⟨-, -, he⟩ | ⟨-, -, he⟩ <;> rw [he] <;> rfl

@[simp] theorem blockSteps_n (k : Nat) (s : State) : (State.blockSteps k s).n = s.n := by
  induction k generalizing s with
  | zero => rfl
  | succ k ih => rw [blockSteps_succ, ih, blockStep_n]

@[simp] theorem finished_n (s : State) : s.finished.n = s.n := by
  rw [State.finished, blockSteps_n, start_n]

end Sys2Proof.Machine
end

section
/-! PROOFS. Two states that read the same input bytes over `[0, N)` offer the same candidates at an
offset. No comparison, run or rendered token reads a byte past `N` (40_match_scanner.md R91). -/

namespace Sys2Proof.Machine

open Sys2Proof

/-- Two states with the same `N` that read the same REF and TGT bytes over `[0, N)`. -/
structure State.SameInputs (s t : State) : Prop where
  n : s.n = t.n
  refByte : ∀ a, a < s.n → s.refByte a = t.refByte a
  tgtByte : ∀ a, a < s.n → s.tgtByte a = t.tgtByte a

/-- Two states that read the same COST entries from offset `i` to `N`. -/
def State.SameCostsFrom (s t : State) (i : Nat) : Prop :=
  ∀ o, i ≤ o → o ≤ s.n → s.costEntry o = t.costEntry o

/-- Written inputs that agree as memory reads agree as bytes. -/
theorem State.SameInputs.of_reads {s t : State} (hs : s.InputsWritten) (hn : s.n = t.n)
    (h : ∀ a, a < s.n → Memory.read s.block.ref a = Memory.read t.block.ref a ∧
      Memory.read s.block.tgt a = Memory.read t.block.tgt a) : s.SameInputs t where
  n := hn
  refByte a ha := by
    obtain ⟨x, hx⟩ := Option.isSome_iff_exists.1 (hs a ha).1
    simp [State.refByte, ← (h a ha).1, hx]
  tgtByte a ha := by
    obtain ⟨x, hx⟩ := Option.isSome_iff_exists.1 (hs a ha).2
    simp [State.tgtByte, ← (h a ha).2, hx]

/-! ## Runs, mismatches and rendered tokens -/

section
variable {s t : State} (h : s.SameInputs t)
include h

theorem State.SameInputs.differs {i j p : Nat} (hi : i + p < s.n) (hj : j + p < s.n) :
    s.differs i j p = t.differs i j p := by
  simp [State.differs, h.tgtByte _ hi, h.refByte _ hj]

theorem State.SameInputs.msLim (i j : Nat) : s.msLim i j = t.msLim i j := by
  simp [State.msLim, h.n]

theorem State.SameInputs.runFrom {i j : Nat} (fuel m : Nat) (hi : i + m + fuel ≤ s.n)
    (hj : j + m + fuel ≤ s.n) : s.runFrom i j fuel m = t.runFrom i j fuel m := by
  induction fuel generalizing m with
  | zero => rfl
  | succ fuel ih =>
    simp only [State.runFrom, h.differs (i := i) (j := j) (p := m) (by omega) (by omega),
      ih (m + 1) (by omega) (by omega)]

/-- The bound of a run keeps it inside both buffers, so runs agree at every pair. -/
theorem State.SameInputs.msRunlen : s.msRunlen = t.msRunlen := by
  funext i j
  simp only [State.msRunlen, ← h.msLim]
  rcases Nat.eq_zero_or_pos (s.msLim i j) with h0 | hpos
  · simp [h0, State.runFrom]
  · have := msLim_bounds s i j hpos
    exact h.runFrom _ _ (by omega) (by omega)

theorem State.SameInputs.msDiffs {i j k : Nat} (hi : i + k ≤ s.n) (hj : j + k ≤ s.n) :
    s.msDiffs i j k = t.msDiffs i j k :=
  List.countP_congr fun p hp => by
    have hp := List.mem_range.1 hp
    rw [h.differs (by omega) (by omega)]

theorem State.SameInputs.teLit1 {i : Nat} (hi : i < s.n) : s.teLit1 i = t.teLit1 i := by
  simp [State.teLit1, h.refByte i hi, h.tgtByte i hi]

theorem State.SameInputs.teBitmap {i j k : Nat} (hi : i + k ≤ s.n) (hj : j + k ≤ s.n) :
    s.teBitmap i j k = t.teBitmap i j k := by
  refine List.map_congr_left fun b _ => ?_
  have hbit : ∀ q, (decide (8 * b + q < k) && s.differs i j (8 * b + q)) =
      (decide (8 * b + q < k) && t.differs i j (8 * b + q)) := fun q => by
    by_cases hq : 8 * b + q < k
    · rw [h.differs (by omega) (by omega)]
    · simp [hq]
  simp only [State.bitmapByte, hbit]

theorem State.SameInputs.tePatches {i j k : Nat} (hi : i + k ≤ s.n) (hj : j + k ≤ s.n) :
    s.tePatches i j k = t.tePatches i j k := by
  have hfilter : (List.range k).filter (s.differs i j) = (List.range k).filter (t.differs i j) :=
    List.filter_congr fun p hp => by
      have hp := List.mem_range.1 hp
      exact h.differs (by omega) (by omega)
  rw [State.tePatches, State.tePatches, hfilter]
  refine List.map_congr_left fun p hp => ?_
  have hp := List.mem_range.1 (List.mem_filter.1 hp).1
  rw [h.refByte _ (by omega), h.tgtByte _ (by omega)]

theorem State.SameInputs.teApprox {i j k : Nat} (hi : i + k ≤ s.n) (hj : j + k ≤ s.n) :
    s.teApprox i j k = t.teApprox i j k := by
  simp only [State.teApprox, h.teBitmap hi hj, h.tePatches hi hj]

/-! ## Candidates -/

theorem State.SameInputs.bestRun (i : Nat) : s.bestRun i = t.bestRun i := by
  simp only [State.bestRun, h.n, h.msRunlen]

theorem State.SameInputs.bestAddr (i : Nat) : s.bestAddr i = t.bestAddr i := by
  simp only [State.bestAddr, h.n, h.msRunlen, h.bestRun]

variable {i : Nat} (hc : s.SameCostsFrom t (i + 1))
include hc

theorem State.SameInputs.literalCandidate (hi : i < s.n) :
    s.literalCandidate i = t.literalCandidate i := by
  simp only [State.literalCandidate, h.teLit1 hi, hc (i + 1) (Nat.le_refl _) hi]

theorem State.SameInputs.approxCandidate {j k : Nat} (hk : 0 < k) (hi : i + k ≤ s.n)
    (hj : j + k ≤ s.n) : s.approxCandidate i j k = t.approxCandidate i j k := by
  simp only [State.approxCandidate, h.msDiffs hi hj, h.teApprox hi hj, hc (i + k) (by omega) hi]

theorem State.SameInputs.approxCandidatesAt (j : Nat) :
    s.approxCandidatesAt i j = t.approxCandidatesAt i j := by
  simp only [State.approxCandidatesAt, ← h.msRunlen, ← h.msLim]
  split
  · rfl
  · next hrun =>
    refine List.map_congr_left fun k hk => ?_
    have hk := List.mem_range'_1.1 hk
    have := msLim_bounds s i j (by omega)
    exact h.approxCandidate hc (by omega) (by omega) (by omega)

theorem State.SameInputs.approxCandidates : s.approxCandidates i = t.approxCandidates i := by
  rw [State.approxCandidates, State.approxCandidates, h.n, funext (h.approxCandidatesAt hc)]

theorem State.SameInputs.exactCandidates (hi : i < s.n) :
    s.exactCandidates i = t.exactCandidates i := by
  simp only [State.exactCandidates, ← h.bestRun]
  refine List.map_congr_left fun len hlen => ?_
  have hlen := List.mem_range'_1.1 hlen
  have := bestRun_le s (Nat.le_of_lt hi)
  simp only [State.exactCandidate, h.bestAddr, hc (i + len) (by omega) (by omega)]

end

end Sys2Proof.Machine
end

section
/-! PROOFS. One offset step of a run over written inputs: it commits the first cheapest candidate
(41_cost_builder.md R124, R127) and keeps what the steps before it committed. -/

namespace Sys2Proof.Machine

open Sys2Proof

theorem FirstMinimum.mem {c : Candidate} {cs : List Candidate} (h : FirstMinimum c cs) :
    c ∈ cs := by
  obtain ⟨before, after, rfl, -, -⟩ := h
  simp

theorem FirstMinimum.cost_le {c x : Candidate} {cs : List Candidate} (h : FirstMinimum c cs)
    (hx : x ∈ cs) : c.cost ≤ x.cost := by
  obtain ⟨before, after, rfl, hbefore, hafter⟩ := h
  rcases List.mem_append.1 hx with hx | hx
  · exact Nat.le_of_lt (hbefore x hx)
  · rcases List.mem_cons.1 hx with rfl | hx
    · exact Nat.le_refl _
    · exact hafter x hx

/-- The candidate the registers hold at the end of offset step `i`: see `offsetWork_holds`. -/
def State.bestCandidate (s : State) (i : Nat) : Candidate :=
  (s.approxCandidates i ++ s.exactCandidates i).foldl betterOf (s.literalCandidate i)

theorem bestCandidate_firstMinimum (s : State) (i : Nat) :
    FirstMinimum (s.bestCandidate i) (s.candidates i) := foldl_betterOf _ _

theorem bestCandidate_cost_le (s : State) (i : Nat) :
    (s.bestCandidate i).cost ≤ 2 + (s.costEntry (i + 1)).toNat :=
  (bestCandidate_firstMinimum s i).cost_le (x := s.literalCandidate i) (by simp [State.candidates])

theorem bestCandidate_token_length_le (s : State) {i : Nat} (hn : s.n ≤ Config.NMAX)
    (hi : i < s.n) : (s.bestCandidate i).token.length ≤ 74 := by
  obtain ⟨ins, hok⟩ := candidate_ok s hn hi (bestCandidate_firstMinimum s i).mem
  exact hok.size.2

theorem State.SameInputs.bestCandidate {s t : State} {i : Nat} (h : s.SameInputs t)
    (hc : s.SameCostsFrom t (i + 1)) (hi : i < s.n) : s.bestCandidate i = t.bestCandidate i := by
  rw [State.bestCandidate, State.bestCandidate, h.literalCandidate hc hi, h.approxCandidates hc,
    h.exactCandidates hc hi]

/-! ## What an offset step commits and what it keeps -/

/-- Entry `i` of the tables is written and holds candidate `c`. -/
structure State.EntryHolds (s : State) (i : Nat) (c : Candidate) : Prop where
  written : s.EntryWritten i
  cost : (s.costEntry i).toNat = c.cost
  trans : (s.transEntry i).toNat = i + c.len
  toklen : (s.toklenEntry i).toNat = c.token.length
  token : s.token i = c.token

/-- Entry `i` of every table reads the same in `s` and `t`. -/
structure State.SameEntry (s t : State) (i : Nat) : Prop where
  cost : s.costEntry i = t.costEntry i
  trans : s.transEntry i = t.transEntry i
  toklen : s.toklenEntry i = t.toklenEntry i
  token : s.token i = t.token i

theorem State.EntryHolds.sameEntry {s t : State} {i : Nat} {c : Candidate} (hs : s.EntryHolds i c)
    (ht : t.EntryHolds i c) : s.SameEntry t i where
  cost := BitVec.eq_of_toNat_eq (hs.cost.trans ht.cost.symm)
  trans := BitVec.eq_of_toNat_eq (hs.trans.trans ht.trans.symm)
  toklen := BitVec.eq_of_toNat_eq (hs.toklen.trans ht.toklen.symm)
  token := hs.token.trans ht.token.symm

/-- The block computes its tables downward and has done so for every offset from `k` on: R16, R31,
and the part of R131 that keeps the sums of the next step from wrapping (R114). -/
structure State.ComputedFrom (s : State) (k : Nat) : Prop where
  phase : s.block.phase = .run
  cur : s.block.cur.toNat = k
  legal : s.n ≤ Config.NMAX
  cur_le : k ≤ s.n
  inputs : s.InputsWritten
  endCost : Memory.read s.block.cost s.n = some (BitVec.ofNat 32 Config.COST_END)
  written : ∀ i, k ≤ i → i < s.n → s.EntryWritten i
  toklen_le : ∀ i, k ≤ i → i < s.n → (s.toklenEntry i).toNat ≤ 74
  cost_le : ∀ o, k ≤ o → o ≤ s.n → (s.costEntry o).toNat ≤ 2 * (s.n - o)

theorem costEntry_of_read {s : State} {a : Nat} {v : Word}
    (h : Memory.read s.block.cost a = some v) : s.costEntry a = v := by
  simp [State.costEntry, h]

@[simp] theorem offsetStep_n (s : State) : s.offsetStep.n = s.n := rfl

theorem offsetStep_refByte {s : State} (h : s.InputsWritten) {a : Nat} (ha : a < s.n) :
    s.offsetStep.refByte a = s.refByte a := by
  obtain ⟨x, hx⟩ := Option.isSome_iff_exists.1 (h a ha).1
  simp [State.refByte, State.offsetStep, hx]

theorem offsetStep_tgtByte {s : State} (h : s.InputsWritten) {a : Nat} (ha : a < s.n) :
    s.offsetStep.tgtByte a = s.tgtByte a := by
  obtain ⟨x, hx⟩ := Option.isSome_iff_exists.1 (h a ha).2
  simp [State.tgtByte, State.offsetStep, hx]

section
variable {s : State} {k : Nat} (h : s.ComputedFrom (k + 1))
include h

theorem State.ComputedFrom.offsetWork_i_toNat : s.offsetWork.i.toNat = k := by
  rw [offsetWork_i, offset_pred_toNat (by rw [h.cur]; omega), h.cur]
  omega

/-- Offset step `k` commits the first cheapest candidate of offset `k` (R123, R124). -/
theorem State.ComputedFrom.offsetStep_commits :
    s.offsetStep.EntryHolds k (s.bestCandidate k) := by
  have hcosts : s.CostsBounded k := fun o hon hko => h.cost_le o hko hon
  have hregs : s.offsetWork.Holds k (s.bestCandidate k) := by
    have hwork := offsetWork_holds s h.legal (by rw [h.cur]; omega)
      (by rw [h.cur]; exact h.cur_le) (by rw [h.cur]; exact hcosts)
    rwa [h.cur] at hwork
  obtain ⟨hcost, htrans, htoklen, htoken, hwritten⟩ :=
    cbCommit_entry s s.offsetWork (offsetWork_fits s).1
  rw [hregs.atOffset] at hcost htrans htoklen htoken hwritten
  exact ⟨hwritten, (congrArg _ hcost).trans hregs.cost, (congrArg _ htrans).trans hregs.reach,
    (congrArg _ htoklen).trans hregs.size, htoken.trans hregs.bytes⟩

theorem State.ComputedFrom.offsetStep_keeps {i : Nat} (hki : k < i) (hi : i < s.n) :
    s.offsetStep.SameEntry s i ∧ s.offsetStep.EntryWritten i := by
  have hother : s.offsetWork.i.toNat ≠ i := by rw [h.offsetWork_i_toNat]; omega
  obtain ⟨hcost, htrans, htoklen, htoken, hwritten⟩ :=
    cbCommit_other s s.offsetWork hother (h.written i hki hi) (offsetWork_fits s).2
      (Nat.le_trans (h.toklen_le i hki hi) (by decide))
  exact ⟨⟨hcost, htrans, htoklen, htoken⟩, hwritten⟩

theorem State.ComputedFrom.offsetStep_endCost :
    Memory.read s.offsetStep.block.cost s.n = some (BitVec.ofNat 32 Config.COST_END) := by
  have hother : s.offsetWork.i.toNat ≠ s.n := by
    rw [h.offsetWork_i_toNat]
    exact Nat.ne_of_lt h.cur_le
  rw [State.offsetStep, (cbCommit_reads s s.offsetWork s.n).1, if_neg hother, h.endCost]

/-- COST above the offset is kept, up to and including `COST[N]`. -/
theorem State.ComputedFrom.offsetStep_costEntry {o : Nat} (hko : k < o) (ho : o ≤ s.n) :
    s.offsetStep.costEntry o = s.costEntry o := by
  rcases Nat.lt_or_eq_of_le ho with hlt | rfl
  · exact (h.offsetStep_keeps hko hlt).1.cost
  · rw [costEntry_of_read h.offsetStep_endCost, costEntry_of_read h.endCost]

/-- An offset step extends the computed part of the tables by one offset. -/
theorem State.ComputedFrom.offsetStep : s.offsetStep.ComputedFrom k where
  phase := h.phase
  cur := by rw [offsetStep_cur (by rw [h.cur]; omega), h.cur]; omega
  legal := h.legal
  cur_le := Nat.le_of_lt h.cur_le
  inputs := h.inputs
  endCost := h.offsetStep_endCost
  written i hki hi := by
    rcases Nat.lt_or_eq_of_le hki with hlt | rfl
    · exact (h.offsetStep_keeps hlt hi).2
    · exact h.offsetStep_commits.written
  toklen_le i hki hi := by
    rcases Nat.lt_or_eq_of_le hki with hlt | rfl
    · rw [(h.offsetStep_keeps hlt hi).1.toklen]
      exact h.toklen_le i hlt hi
    · rw [h.offsetStep_commits.toklen]
      exact bestCandidate_token_length_le s h.legal hi
  cost_le o hko ho := by
    rw [offsetStep_n] at ho ⊢
    rcases Nat.lt_or_eq_of_le hko with hlt | rfl
    · rw [h.offsetStep_costEntry hlt ho]
      exact h.cost_le o hlt ho
    · rw [h.offsetStep_commits.cost]
      have hliteral := bestCandidate_cost_le s k
      have hnext := h.cost_le (k + 1) (Nat.le_refl _) h.cur_le
      have := h.cur_le
      omega

end

theorem State.Ready.start_eq {s : State} (h : s.Ready) : s.start = s.cbInit.setPhase .run := by
  obtain ⟨-, hlegal, -⟩ := h
  rw [State.start, if_neg (Nat.not_lt.2 hlegal)]

/-- START over written inputs begins with nothing computed but `COST[N]` (R110, R151). -/
theorem State.Ready.start_computedFrom {s : State} (h : s.Ready) : s.start.ComputedFrom s.n := by
  have hend : Memory.read (s.cbInit.setPhase .run).block.cost s.n =
      some (BitVec.ofNat 32 Config.COST_END) := by simp
  have ⟨_, hlegal, hinputs⟩ := h
  rw [h.start_eq]
  refine ⟨rfl, rfl, hlegal, Nat.le_refl _, hinputs, hend, fun i hi hlt => ?_, fun i hi hlt => ?_,
    fun o ho hle => ?_⟩
  · exact absurd hlt (Nat.not_lt.2 hi)
  · exact absurd hlt (Nat.not_lt.2 hi)
  · obtain rfl : o = s.n := Nat.le_antisymm hle ho
    rw [costEntry_of_read hend]
    exact Nat.zero_le _

end Sys2Proof.Machine
end

section
/-! PROOFS. Two runs over the same inputs, side by side (00_scope.md R8, 41_cost_builder.md R133). -/

namespace Sys2Proof.Machine

open Sys2Proof

/-- Two states with the same inputs whose tables agree at every offset from `k` on. -/
structure State.SameTablesFrom (s t : State) (k : Nat) : Prop where
  inputs : s.SameInputs t
  costs : s.SameCostsFrom t k
  entries : ∀ i, k ≤ i → i < s.n → s.SameEntry t i

/-- The tables read the same whatever the phase. -/
theorem State.SameTablesFrom.setPhase {s t : State} {k : Nat} (h : s.SameTablesFrom t k)
    (p q : Phase) : (s.setPhase p).SameTablesFrom (t.setPhase q) k where
  inputs := ⟨h.inputs.n, h.inputs.refByte, h.inputs.tgtByte⟩
  costs := h.costs
  entries i hi hlt :=
    have he := h.entries i hi hlt
    ⟨he.cost, he.trans, he.toklen, he.token⟩

/-- The inputs written before START are still the inputs after an offset step. -/
theorem State.SameInputs.offsetStep {s t : State} (h : s.SameInputs t) (hs : s.InputsWritten)
    (ht : t.InputsWritten) : s.offsetStep.SameInputs t.offsetStep where
  n := h.n
  refByte a ha := by
    rw [offsetStep_refByte hs ha, h.refByte a ha, offsetStep_refByte ht (h.n ▸ ha)]
  tgtByte a ha := by
    rw [offsetStep_tgtByte hs ha, h.tgtByte a ha, offsetStep_tgtByte ht (h.n ▸ ha)]

/-- The same offset step of both runs: the new entries hold the same candidate, the older ones are
kept. -/
theorem State.SameTablesFrom.offsetStep {s t : State} {k : Nat} (h : s.SameTablesFrom t (k + 1))
    (hs : s.ComputedFrom (k + 1)) (ht : t.ComputedFrom (k + 1)) :
    s.offsetStep.SameTablesFrom t.offsetStep k := by
  have hn := h.inputs.n
  have hbest : s.bestCandidate k = t.bestCandidate k :=
    h.inputs.bestCandidate h.costs hs.cur_le
  have hnew : s.offsetStep.SameEntry t.offsetStep k :=
    hs.offsetStep_commits.sameEntry (hbest ▸ ht.offsetStep_commits)
  refine ⟨h.inputs.offsetStep hs.inputs ht.inputs, fun o hko ho => ?_, fun i hki hi => ?_⟩
  · rcases Nat.lt_or_eq_of_le hko with hlt | rfl
    · rw [hs.offsetStep_costEntry hlt ho, ht.offsetStep_costEntry hlt (hn ▸ ho)]
      exact h.costs o hlt ho
    · exact hnew.cost
  · rcases Nat.lt_or_eq_of_le hki with hlt | rfl
    · obtain ⟨es, -⟩ := hs.offsetStep_keeps hlt hi
      obtain ⟨et, -⟩ := ht.offsetStep_keeps hlt (hn ▸ hi)
      have he := h.entries i hlt hi
      exact ⟨es.cost.trans (he.cost.trans et.cost.symm),
        es.trans.trans (he.trans.trans et.trans.symm),
        es.toklen.trans (he.toklen.trans et.toklen.symm),
        es.token.trans (he.token.trans et.token.symm)⟩
    · exact hnew

theorem State.ComputedFrom.blockStep_succ {s : State} {k : Nat} (h : s.ComputedFrom (k + 1)) :
    s.blockStep = s.offsetStep := by
  simp [State.blockStep, h.phase, h.cur]

theorem State.ComputedFrom.blockStep_zero {s : State} (h : s.ComputedFrom 0) :
    s.blockStep = s.setPhase .done := by
  simp [State.blockStep, h.phase, h.cur]

/-- The `k` offset steps left and the completion step take two runs with the same tables from `k`
on to the same tables. -/
theorem State.SameTablesFrom.blockSteps {k : Nat} {s t : State} (h : s.SameTablesFrom t k)
    (hs : s.ComputedFrom k) (ht : t.ComputedFrom k) :
    (State.blockSteps (k + 1) s).SameTablesFrom (State.blockSteps (k + 1) t) 0 := by
  induction k generalizing s t with
  | zero =>
    simp only [State.blockSteps, hs.blockStep_zero, ht.blockStep_zero]
    exact h.setPhase .done .done
  | succ k ih =>
    rw [blockSteps_succ, blockSteps_succ (k + 1) t, hs.blockStep_succ, ht.blockStep_succ]
    exact ih (h.offsetStep hs ht) hs.offsetStep ht.offsetStep

/-- After START two ready states with the same inputs agree on the one entry computed, `COST[N]`. -/
theorem State.SameInputs.start {s t : State} (h : s.SameInputs t) (hs : s.Ready) (ht : t.Ready) :
    s.start.SameTablesFrom t.start s.n := by
  have hends := costEntry_of_read hs.start_computedFrom.endCost
  have hendt := costEntry_of_read ht.start_computedFrom.endCost
  rw [start_n] at hends hendt
  refine ⟨?_, fun o ho hle => ?_, fun i hi hlt => ?_⟩
  · rw [hs.start_eq, ht.start_eq]
    exact ⟨h.n, h.refByte, h.tgtByte⟩
  · rw [start_n] at hle
    obtain rfl : o = s.n := Nat.le_antisymm hle ho
    rw [hends, h.n, hendt]
  · rw [start_n] at hlt
    exact absurd hlt (Nat.not_lt.2 hi)

/-- Two ready states with the same inputs finish with the same tables (R133). -/
theorem State.SameInputs.finished {s t : State} (h : s.SameInputs t) (hs : s.Ready)
    (ht : t.Ready) : s.finished.SameTablesFrom t.finished 0 := by
  rw [State.finished, State.finished, ← h.n]
  exact (h.start hs ht).blockSteps hs.start_computedFrom (h.n ▸ ht.start_computedFrom)

/-- Settles O32: both runs compute the tables downward from `N`, and at each offset they commit the
first cheapest of the same candidates. -/
theorem tablesDependOnTheInputsAlone : Obligations.TablesDependOnTheInputsAlone := by
  intro s t hs ht hn hreads
  have ⟨_, _, hinputs⟩ := hs
  have hsame := (State.SameInputs.of_reads hinputs hn hreads).finished hs ht
  rw [← finished_n s]
  exact ⟨fun i hi => hsame.costs i (Nat.zero_le i) hi, fun i hi =>
    have he := hsame.entries i (Nat.zero_le i) hi
    ⟨he.trans, he.toklen, he.token⟩⟩

end Sys2Proof.Machine
end

section
/-! PROOFS. The tag of a token: what it selects and what it carries (30_encoding.md R60, R65 to
R67, R70, R71). -/

namespace Sys2Proof

/-! ## Decoding by the ranges of the tag -/

theorem decode_lit1 {tag : Byte} (h : tag.toNat = 0x00) (x : Byte) (rest : List Byte) :
    decode (tag :: x :: rest) = .ok (.lit1 x, rest) := by
  simp [decode, h]

theorem decode_lit2 {tag : Byte} (h : tag.toNat = 0x01) (x0 x1 : Byte) (rest : List Byte) :
    decode (tag :: x0 :: x1 :: rest) = .ok (.lit2 x0 x1, rest) := by
  simp [decode, h]

theorem decode_exact {tag : Byte} (h2 : 0x02 ≤ tag.toNat) (h7F : tag.toNat ≤ 0x7F)
    (al am : Byte) (rest : List Byte) :
    decode (tag :: al :: am :: rest) =
      .ok (.exactMatch (exactLen tag) (addrOf tag al am), rest) := by
  simp [decode, h7F, show tag.toNat ≠ 0 by omega, show tag.toNat ≠ 1 by omega]

theorem decode_approx {tag : Byte} (h : 0x80 ≤ tag.toNat) (al am : Byte) (rest : List Byte) :
    decode (tag :: al :: am :: rest) =
      decodeApproxBody (approxLen tag) (addrOf tag al am) rest := by
  simp [decode, show tag.toNat ≠ 0 by omega, show tag.toNat ≠ 1 by omega,
    show ¬ tag.toNat ≤ 0x7F by omega]

theorem approxLen_bounds (tag : Byte) : 1 ≤ approxLen tag ∧ approxLen tag ≤ 64 := by
  rw [approxLen_eq]
  omega

/-- 72 bytes after the header hold the bitmap and the patches of any APPROX token: at most 8 bitmap
bytes, and at most one patch byte for each of their 64 bits. -/
theorem decodeApproxBody_of_length {len : Nat} (a : RefAddr) {bs : List Byte} (hlen : len ≤ 64)
    (hbs : 72 ≤ bs.length) :
    ∃ bm ps rest, decodeApproxBody len a bs = .ok (.approxMatch len a bm ps, rest) := by
  have hbitmap : ceil8 len ≤ 8 := by rw [ceil8_eq]; omega
  have hpatches := popcounts_le (bs.take (ceil8 len))
  rw [List.length_take_of_le (by omega)] at hpatches
  exact ⟨_, _, _, if_neg (by omega)⟩

/-- Settles O3: one decoding equation for each of the four ranges the tags fall into. -/
theorem tagAloneSelectsTheFormat : Obligations.TagAloneSelectsTheFormat := by
  intro tag bs hbs
  obtain ⟨b0, b1, rest, rfl⟩ : ∃ b0 b1 rest, bs = b0 :: b1 :: rest := by
    match bs, hbs with
    | b0 :: b1 :: rest, _ => exact ⟨b0, b1, rest, rfl⟩
  have hranges : tag.toNat = 0x00 ∨ tag.toNat = 0x01 ∨ (0x02 ≤ tag.toNat ∧ tag.toNat ≤ 0x7F) ∨
      0x80 ≤ tag.toNat := by omega
  rcases hranges with h | h | ⟨h2, h7F⟩ | h
  · exact ⟨_, _, decode_lit1 h b0 (b1 :: rest), fun _ => ⟨_, rfl⟩, by omega, by omega, by omega⟩
  · exact ⟨_, _, decode_lit2 h b0 b1 rest, by omega, fun _ => ⟨_, _, rfl⟩, by omega, by omega⟩
  · exact ⟨_, _, decode_exact h2 h7F b0 b1 rest, by omega, by omega, fun _ => ⟨_, _, rfl⟩,
      by omega⟩
  · obtain ⟨bm, ps, rest', hbody⟩ := decodeApproxBody_of_length (addrOf tag b0 b1)
      (approxLen_bounds tag).2 (bs := rest) (by simpa using hbs)
    exact ⟨_, _, (decode_approx h b0 b1 rest).trans hbody, by omega, by omega, by omega,
      fun _ => ⟨_, _, _, _, rfl⟩⟩

/-! ## The fields of the tag -/

/-- The low bit of a tag is the address bit it was built from. -/
theorem getLsbD_zero_of_toNat {tag : Byte} {ah : Bool} (h : tag.toNat % 2 = ah.toNat) :
    tag.getLsbD 0 = ah :=
  Function.LeftInverse.injective Bool.ofNat_toNat ((getLsbD_zero_toNat tag).trans h)

section
variable {len : Nat} (ah : Bool) (h1 : 1 ≤ len)
include h1

theorem fields_exactTag (h63 : len ≤ 63) :
    exactLen (exactTag len ah) = len ∧ (exactTag len ah).getLsbD 0 = ah ∧
      0x02 ≤ (exactTag len ah).toNat ∧ (exactTag len ah).toNat ≤ 0x7F := by
  have htag := exactTag_toNat ah h1 h63
  have hah := ah.toNat_lt
  refine ⟨?_, getLsbD_zero_of_toNat (by omega), by omega, by omega⟩
  rw [exactLen_eq]
  omega

theorem fields_approxTag (h64 : len ≤ 64) :
    approxLen (approxTag len ah) = len ∧ (approxTag len ah).getLsbD 0 = ah ∧
      0x80 ≤ (approxTag len ah).toNat := by
  have htag := approxTag_toNat ah h1 h64
  have hah := ah.toNat_lt
  refine ⟨?_, getLsbD_zero_of_toNat (by omega), by omega⟩
  rw [approxLen_eq]
  omega

end

theorem exactLen_bounds {tag : Byte} (h2 : 0x02 ≤ tag.toNat) (h7F : tag.toNat ≤ 0x7F) :
    1 ≤ exactLen tag ∧ exactLen tag ≤ 63 := by
  rw [exactLen_eq]
  omega

theorem exactTag_of_fields {tag : Byte} (h2 : 0x02 ≤ tag.toNat) (h7F : tag.toNat ≤ 0x7F) :
    exactTag (exactLen tag) (tag.getLsbD 0) = tag := by
  obtain ⟨h1, h63⟩ := exactLen_bounds h2 h7F
  apply BitVec.eq_of_toNat_eq
  rw [exactTag_toNat _ h1 h63, exactLen_eq, getLsbD_zero_toNat]
  omega

theorem approxTag_of_fields {tag : Byte} (h : 0x80 ≤ tag.toNat) :
    approxTag (approxLen tag) (tag.getLsbD 0) = tag := by
  obtain ⟨h1, h64⟩ := approxLen_bounds tag
  have := tag.isLt
  apply BitVec.eq_of_toNat_eq
  rw [approxTag_toNat _ h1 h64, approxLen_eq, getLsbD_zero_toNat]
  omega

/-- The EXACT tag of length 64 overflows into the APPROX range (R67). -/
theorem exactTag_64 (ah : Bool) : exactTag 64 ah = approxTag 1 ah := rfl

/-- Settles O5: the round trips of both pairs; EXACT length 64 has an APPROX tag. -/
theorem tagPairsAreInverse : Obligations.TagPairsAreInverse := by
  refine ⟨fun _ ah => fields_exactTag ah, fun _ h2 h7F =>
    ⟨exactTag_of_fields h2 h7F, exactLen_bounds h2 h7F⟩, fun _ ah => fields_approxTag ah,
    fun tag h => ⟨approxTag_of_fields h, approxLen_bounds tag⟩, fun ah => ?_⟩
  obtain ⟨hlen, -, hrange⟩ := fields_approxTag ah (Nat.le_refl 1) (by decide)
  rw [exactTag_64]
  exact ⟨hrange, hlen⟩

end Sys2Proof
end

section
/-! PROOFS. What the three writing tokens do at a consumer (30_encoding.md R81, R83, R84). -/

namespace Sys2Proof.Machine

open Sys2Proof

/-! ## OUT after the consumer has written -/

theorem read_emit_inside (s : State) {bytes : List Byte} {p : Nat} {b : Byte}
    (h : bytes[p]? = some b) :
    Memory.read (s.emit bytes).refresh.cons.out (s.cons.o + p) = some b := by
  obtain ⟨hp, -⟩ := List.getElem?_eq_some_iff.1 h
  rw [State.refresh_cons, State.emit_cons_out, Memory.read_writeAll, if_pos (by omega),
    Nat.add_sub_cancel_left, h]

theorem read_emit_outside (s : State) {bytes : List Byte} {a : Nat}
    (h : a < s.cons.o ∨ s.cons.o + bytes.length ≤ a) :
    Memory.read (s.emit bytes).refresh.cons.out a = Memory.read s.cons.out a :=
  Memory.read_writeAll_outside s.cons.out bytes h

/-! ## The tokens whose windows stay inside `N` -/

theorem exec_lit1_next {s : State} (x : Byte) (ho : s.cons.o < s.cons.n) :
    exec (.lit1 x) s = .next (s.emit [s.consRefByte s.cons.o ^^^ x]).refresh :=
  if_pos ho

theorem exec_exactMatch_next {s : State} {len : Nat} {addr : RefAddr}
    (ho : s.cons.o + len ≤ s.cons.n) (ha : addr.toNat + len ≤ s.cons.n) :
    exec (.exactMatch len addr) s = .next (s.emit (s.copied len addr)).refresh := by
  simp only [exec, execExactMatch, windowFault_none.2 ⟨ho, ha⟩]

/-- Settles O8: the token writes the one byte at `o`. -/
theorem lit1XorsTheReferenceByte : Obligations.Lit1XorsTheReferenceByte := by
  intro s x ho
  refine ⟨_, exec_lit1_next x ho, read_emit_inside s (p := 0) rfl, rfl, fun a ha => ?_,
    rfl, rfl, rfl, rfl, rfl, rfl⟩
  refine read_emit_outside s ?_
  rw [List.length_singleton]
  omega

/-- Settles O9: the bytes written are the copied ones, `len` of them. -/
theorem exactCopiesFromTheReference : Obligations.ExactCopiesFromTheReference := by
  intro s len addr ho ha
  refine ⟨_, exec_exactMatch_next ho ha,
    fun p hp => read_emit_inside s (copied_getElem? s len addr p hp), by simp,
    fun a hout => read_emit_outside s (by rwa [copied_length]), rfl, rfl, rfl, rfl, rfl, rfl⟩

/-- Settles O10: the patching succeeds under these premises, and leaves `len` bytes to write. -/
theorem approxCopiesAndPatches : Obligations.ApproxCopiesAndPatches := by
  intro s len addr bm ps hwf hpad ho ha
  obtain ⟨bytes, hexec, rfl, hbytes⟩ := execApproxMatch_next hwf hpad ho ha
  exact ⟨_, hexec, fun p hp => read_emit_inside s (hbytes p hp), rfl,
    fun a hout => read_emit_outside s hout, rfl, rfl, rfl, rfl, rfl, rfl⟩

end Sys2Proof.Machine
end

section
/-! PROOFS. The bound of run and extension at a pair of offsets (40_match_scanner.md R91). -/

namespace Sys2Proof.Machine

open Sys2Proof

section
variable {s : State} {i j : Nat} (hi : i < s.n) (hj : j < s.n)
include hi hj

theorem msLim_pos : 0 < s.msLim i j :=
  Nat.lt_min.2 ⟨by decide, Nat.lt_min.2 ⟨Nat.sub_pos_of_lt hi, Nat.sub_pos_of_lt hj⟩⟩

/-- The last offset of either buffer leaves room for one position. -/
theorem msLim_last (hlast : i = s.n - 1 ∨ j = s.n - 1) : s.msLim i j = 1 := by
  have hpos := msLim_pos hi hj
  obtain ⟨hiLim, hjLim⟩ := msLim_bounds s i j hpos
  rcases hlast with hlast | hlast <;> omega

end

/-- Settles O18: the formula is the definition's, and each range clause is a lemma about it. -/
theorem boundAtAPairOfOffsets : Obligations.BoundAtAPairOfOffsets :=
  fun s i j hi hj => ⟨rfl, msLim_pos hi hj, msLim_le s i j, msLim_last hi hj⟩

end Sys2Proof.Machine
end

section
/-! PROOFS. A token and its bytes: what decodes from an encoding (30_encoding.md R61 to R64), and the
length it announces (R75). -/

namespace Sys2Proof

/-- The address bit in the tag is the one the other two address bytes were cut from. -/
theorem addrOf_of_tag {tag : Byte} (a : RefAddr) (h : tag.getLsbD 0 = addrHigh a) :
    addrOf tag (addrLow a) (addrMid a) = a :=
  addrOf_fields tag a (by rw [← h, getLsbD_zero_toNat])

/-- Decoding the bytes of a well-formed token gives the token back, whatever follows it. -/
theorem decode_encode_append {i : Instr} (h : i.wellFormed = true) (rest : List Byte) :
    decode (encode i ++ rest) = .ok (i, rest) := by
  cases i with
  | lit1 x => exact decode_lit1 rfl x rest
  | lit2 x0 x1 => exact decode_lit2 rfl x0 x1 rest
  | exactMatch len addr =>
    obtain ⟨h1, h63⟩ := exact_wellFormed.1 h
    obtain ⟨hlen, hbit, h2, h7F⟩ := fields_exactTag (addrHigh addr) h1 h63
    rw [encode, List.cons_append, List.cons_append, List.cons_append, decode_exact h2 h7F, hlen,
      addrOf_of_tag addr hbit, List.nil_append]
  | approxMatch len addr bm ps =>
    obtain ⟨h1, h64, hbitmap, hpatches⟩ := approx_wellFormed.1 h
    obtain ⟨hlen, hbit, h80⟩ := fields_approxTag (addrHigh addr) h1 h64
    rw [encode, List.append_assoc, List.append_assoc, List.cons_append, List.cons_append,
      List.cons_append, List.nil_append, decode_approx h80, hlen, addrOf_of_tag addr hbit,
      ← List.append_assoc, decodeApproxBody_append addr rest hbitmap hpatches]

theorem toklen_exact {tag : Byte} (h2 : 0x02 ≤ tag.toNat) (h7F : tag.toNat ≤ 0x7F)
    (bs : List Byte) : toklen (tag :: bs) = 3 := by
  simp [toklen, h7F, show tag.toNat ≠ 0 by omega, show tag.toNat ≠ 1 by omega]

theorem toklen_approx {tag : Byte} (h : 0x80 ≤ tag.toNat) (al am : Byte) (bs : List Byte) :
    toklen (tag :: al :: am :: bs) =
      3 + ceil8 (approxLen tag) + popcounts (bs.take (ceil8 (approxLen tag))) := by
  simp [toklen, show tag.toNat ≠ 0 by omega, show tag.toNat ≠ 1 by omega,
    show ¬ tag.toNat ≤ 0x7F by omega]

/-- The length a token announces is the number of its bytes, whatever follows it (R75). -/
theorem toklen_encode_append {i : Instr} (h : i.wellFormed = true) (rest : List Byte) :
    toklen (encode i ++ rest) = (encode i).length := by
  cases i with
  | lit1 x => rfl
  | lit2 x0 x1 => rfl
  | exactMatch len addr =>
    obtain ⟨h1, h63⟩ := exact_wellFormed.1 h
    obtain ⟨-, -, h2, h7F⟩ := fields_exactTag (addrHigh addr) h1 h63
    exact toklen_exact h2 h7F _
  | approxMatch len addr bm ps =>
    obtain ⟨h1, h64, hbitmap, hpatches⟩ := approx_wellFormed.1 h
    obtain ⟨hlen, -, h80⟩ := fields_approxTag (addrHigh addr) h1 h64
    rw [encode_approx_length, encode, List.append_assoc, List.append_assoc, List.cons_append,
      List.cons_append, List.cons_append, List.nil_append, toklen_approx h80, hlen, ← hbitmap,
      List.take_left, hpatches]

end Sys2Proof
end

section
/-! PROOFS. The tables of a finished run: every entry holds the first cheapest candidate of its offset
over the finished tables themselves (41_cost_builder.md R124, R127, R154). -/

namespace Sys2Proof.Machine

open Sys2Proof

/-- Every entry from offset `k` on holds the first cheapest candidate of its offset, with the costs of
the same tables (R124). -/
def State.CheapestFrom (s : State) (k : Nat) : Prop :=
  ∀ i, k ≤ i → i < s.n → s.EntryHolds i (s.bestCandidate i)

theorem State.EntryHolds.of_sameEntry {s t : State} {i : Nat} {c : Candidate}
    (h : t.EntryHolds i c) (he : s.SameEntry t i) (hw : s.EntryWritten i) : s.EntryHolds i c where
  written := hw
  cost := by rw [he.cost, h.cost]
  trans := by rw [he.trans, h.trans]
  toklen := by rw [he.toklen, h.toklen]
  token := by rw [he.token, h.token]

section
variable {s : State} {k : Nat} (h : s.ComputedFrom (k + 1))
include h

/-- An offset step leaves the candidates of its own offset and of those above it as they are: they
depend on the inputs and on the costs above the offset alone. -/
theorem State.ComputedFrom.offsetStep_bestCandidate {i : Nat} (hki : k ≤ i) (hi : i < s.n) :
    s.offsetStep.bestCandidate i = s.bestCandidate i := by
  have hinputs : s.offsetStep.SameInputs s :=
    ⟨rfl, fun _ => offsetStep_refByte h.inputs, fun _ => offsetStep_tgtByte h.inputs⟩
  exact hinputs.bestCandidate (fun o hio => h.offsetStep_costEntry (by omega)) hi

theorem State.CheapestFrom.offsetStep (hc : s.CheapestFrom (k + 1)) :
    s.offsetStep.CheapestFrom k := by
  intro i hki hi
  rw [h.offsetStep_bestCandidate hki hi]
  rcases Nat.lt_or_eq_of_le hki with hlt | rfl
  · obtain ⟨hsame, hwritten⟩ := h.offsetStep_keeps hlt hi
    exact (hc i hlt hi).of_sameEntry hsame hwritten
  · exact h.offsetStep_commits

end

/-- What holds of the whole tables when a run over written inputs is done. -/
structure State.TablesDone (s : State) : Prop where
  phase : s.block.phase = .done
  legal : s.n ≤ Config.NMAX
  inputs : s.InputsWritten
  endCost : (s.costEntry s.n).toNat = 0
  cost_le : ∀ o, o ≤ s.n → (s.costEntry o).toNat ≤ 2 * (s.n - o)
  cheapest : ∀ i, i < s.n → s.EntryHolds i (s.bestCandidate i)

/-- The completion step sets PHASE and leaves the tables as the last offset step left them (R153). -/
theorem State.ComputedFrom.tablesDone {s : State} (h : s.ComputedFrom 0)
    (hc : s.CheapestFrom 0) : (s.setPhase .done).TablesDone where
  phase := rfl
  legal := h.legal
  inputs := h.inputs
  endCost := congrArg BitVec.toNat (costEntry_of_read h.endCost)
  cost_le o := h.cost_le o (Nat.zero_le o)
  cheapest i hi := by
    have hinputs : (s.setPhase .done).SameInputs s := ⟨rfl, fun _ _ => rfl, fun _ _ => rfl⟩
    rw [hinputs.bestCandidate (fun _ _ _ => rfl) hi]
    have hentry := hc i (Nat.zero_le i) hi
    exact hentry.of_sameEntry ⟨rfl, rfl, rfl, rfl⟩ hentry.written

/-- The `k` offset steps left and the completion step finish the tables. -/
theorem State.ComputedFrom.blockSteps_tablesDone {k : Nat} {s : State} (h : s.ComputedFrom k)
    (hc : s.CheapestFrom k) : (State.blockSteps (k + 1) s).TablesDone := by
  induction k generalizing s with
  | zero => simpa only [State.blockSteps, h.blockStep_zero] using h.tablesDone hc
  | succ k ih =>
    rw [blockSteps_succ, h.blockStep_succ]
    exact ih h.offsetStep (hc.offsetStep h)

theorem State.Ready.finished_tablesDone {s : State} (h : s.Ready) : s.finished.TablesDone := by
  refine h.start_computedFrom.blockSteps_tablesDone fun i hi hlt => ?_
  rw [start_n] at hlt
  exact absurd hlt (Nat.not_lt.2 hi)

end Sys2Proof.Machine
end

section
/-! PROOFS. A table entry that holds the first cheapest candidate of its offset is final and correct
(41_cost_builder.md R128 to R131, R134, R136). -/

namespace Sys2Proof.Machine

open Sys2Proof

/-- The next `len` bytes of the target, as a consumer at offset `i` must write them (R136). -/
def State.targetBytes (s : State) (i len : Nat) : List Byte :=
  (List.range len).map (fun p => s.tgtByte (i + p))

/-- OUT after a consumer at offset `i` has written the next `len` bytes of the target. -/
theorem read_emit_targetBytes (s c : State) {i : Nat} (ho : c.cons.o = i) (len a : Nat) :
    Memory.read (c.emit (s.targetBytes i len)).refresh.cons.out a =
      if i ≤ a ∧ a < i + len then some (s.tgtByte a) else Memory.read c.cons.out a := by
  subst ho
  split
  · next hin =>
    obtain ⟨p, rfl⟩ := Nat.exists_eq_add_of_le hin.1
    have hp : p < len := by omega
    exact read_emit_inside c (by simp [State.targetBytes, hp])
  · next hout => exact read_emit_outside c (by simp [State.targetBytes]; omega)

section
variable {s : State} {i : Nat} {c : Candidate} {ins : Instr} (h : s.EntryHolds i c)
  (hok : s.CandidateOk i c ins)
include h hok

/-- The bytes of the entry are exactly one token, that of its candidate. -/
theorem State.EntryHolds.tokenInstr : s.tokenInstr i = some ins := by
  have hdecode := decode_encode_append hok.wellFormed []
  rw [List.append_nil] at hdecode
  rw [State.tokenInstr, h.token, hok.encoded, hdecode]

theorem State.EntryHolds.forward : s.Forward i := by
  have hadv := hok.advances
  rw [State.Forward, h.trans]
  omega

theorem State.EntryHolds.costEquation : s.CostEquation i := by
  rw [State.CostEquation, h.cost, h.toklen, h.trans, hok.cost]

theorem State.EntryHolds.tokenShape : s.TokenShape i := by
  have hlength := toklen_encode_append hok.wellFormed []
  rw [List.append_nil, ← hok.encoded] at hlength
  obtain ⟨hmin, hmax⟩ := hok.size
  refine ⟨by rw [h.token, hlength, h.toklen], by rwa [h.toklen], by rwa [h.toklen], ?_⟩
  rw [h.tokenInstr hok]
  exact hok.emitted

theorem State.EntryHolds.addressRange : s.AddressRange i := by
  intro ins' len addr hins hwindow
  obtain rfl : ins = ins' := Option.some.inj ((h.tokenInstr hok).symm.trans hins)
  obtain ⟨rfl, hsource⟩ := hok.window len addr hwindow
  obtain ⟨-, -, htarget⟩ := hok.advances
  exact ⟨hsource, htarget, h.trans⟩

/-- What a consumer writes for the entry is the target up to its transition, and nothing else. -/
theorem State.EntryHolds.rebuilds (hw : s.InputsWritten) : s.Rebuilds i := by
  refine ⟨ins, h.tokenInstr hok, fun d href hn ho => ?_⟩
  refine ⟨_, hok.rebuilds hw d href hn ho, ?_, rfl, fun a => ?_⟩
  · simp [h.trans, ho]
  · rw [h.trans]
    exact read_emit_targetBytes s d ho c.len a

end

/-- Entry `i` is final and correct once it holds the first cheapest candidate of its offset, over a
successor within the bound of R131. -/
theorem State.EntryHolds.entryOk {s : State} {i : Nat} (h : s.EntryHolds i (s.bestCandidate i))
    (hn : s.n ≤ Config.NMAX) (hi : i < s.n) (hw : s.InputsWritten)
    (hnext : (s.costEntry (i + 1)).toNat ≤ 2 * (s.n - (i + 1))) : s.EntryOk i := by
  obtain ⟨ins, hok⟩ := candidate_ok s hn hi (bestCandidate_firstMinimum s i).mem
  have hliteral := bestCandidate_cost_le s i
  have hsize := hok.size
  have hcost := hok.cost
  refine ⟨h.written, h.forward hok, h.costEquation hok, ?_, h.tokenShape hok, h.addressRange hok,
    h.rebuilds hok hw⟩
  rw [State.CostBounds, h.cost]
  omega

theorem State.TablesDone.entryOk {s : State} (h : s.TablesDone) {i : Nat} (hi : i < s.n) :
    s.EntryOk i :=
  (h.cheapest i hi).entryOk h.legal hi h.inputs (h.cost_le (i + 1) hi)

/-- After a run over written inputs every entry of the tables is final and correct. -/
theorem State.Ready.finished_entryOk {s : State} (h : s.Ready) {i : Nat} (hi : i < s.n) :
    s.finished.EntryOk i :=
  h.finished_tablesDone.entryOk (by rwa [finished_n])

/-- Settles O26: a candidate covers 1 to 64 offsets and ends within `N`. -/
theorem forwardProgress : Obligations.ForwardProgress := by
  intro s h i hi
  rw [← finished_n s]
  exact (h.finished_entryOk hi).forward

/-- Settles O27: the base of the recurrence is kept from START on. -/
theorem costIsTokenPlusSuccessor : Obligations.CostIsTokenPlusSuccessor := by
  intro s h
  have hend := h.finished_tablesDone.endCost
  rw [finished_n] at hend
  exact ⟨hend, fun i hi => (h.finished_entryOk hi).costEquation⟩

/-- Settles O28: the token of a candidate is the encoding of a well-formed token. -/
theorem tableTokensAreWellShaped : Obligations.TableTokensAreWellShaped :=
  fun _ h _ hi => (h.finished_entryOk hi).tokenShape

/-- Settles O29: the literal is a candidate, and no candidate is shorter than 2 bytes. -/
theorem costsAreMonotoneAndBounded : Obligations.CostsAreMonotoneAndBounded := by
  intro s h i hi
  obtain ⟨hmono, hmin, hmax⟩ := (h.finished_entryOk hi).costBounds
  rw [finished_n] at hmax
  exact ⟨hmono, hmax, hmin⟩

/-- Settles O30: the windows of a match are those of its candidate. -/
theorem matchWindowsStayInside : Obligations.MatchWindowsStayInside :=
  fun _ h _ hi => (h.finished_entryOk hi).addressRange

/-- Settles O31: on the token of a candidate a consumer writes the target bytes it covers. -/
theorem tokensRebuildTheTarget : Obligations.TokensRebuildTheTarget :=
  fun _ h _ hi => (h.finished_entryOk hi).rebuilds

end Sys2Proof.Machine
end

section
/-! PROOFS. The chain of finished tables, the read-out walk along it, and what a consumer makes of the
stream (41_cost_builder.md R135, 43_control_and_host.md R166). -/

namespace Sys2Proof.Machine

open Sys2Proof

/-! ## The chain -/

/-- The offsets visited from `o` by following TRANS until `N` is reached. `State.chain` computes it:
see `chainFrom_chain`. -/
inductive State.ChainFrom (s : State) : Nat → List Nat → Prop where
  | done {o : Nat} (eq : o = s.n) : s.ChainFrom o []
  | step {o : Nat} {path : List Nat} (lt : o < s.n)
      (tail : s.ChainFrom (s.transEntry o).toNat path) : s.ChainFrom o (o :: path)

section
variable {s : State} (h : s.TablesDone)
include h

theorem State.TablesDone.forward {o : Nat} (ho : o < s.n) :
    o < (s.transEntry o).toNat ∧ (s.transEntry o).toNat ≤ o + 64 ∧
      (s.transEntry o).toNat ≤ s.n := by
  obtain ⟨hlt, hle⟩ := (h.entryOk ho).forward
  omega

/-- Each transition moves forward, so as much fuel as there are offsets left reaches `N`. -/
theorem State.TablesDone.chainFrom_chain {fuel o : Nat} (ho : o ≤ s.n) (hf : s.n ≤ o + fuel) :
    s.ChainFrom o (s.chain fuel o) := by
  induction fuel generalizing o with
  | zero => exact .done (by omega)
  | succ fuel ih =>
    rw [State.chain]
    split
    · next hend => exact .done hend
    · next hne =>
      have hlt : o < s.n := by omega
      have := h.forward hlt
      exact .step hlt (ih (by omega) (by omega))

end

section
variable {s : State} {o : Nat} {path : List Nat} (hp : s.ChainFrom o path) (h : s.TablesDone)
include hp

theorem State.ChainFrom.getLast {x : Nat} (hx : path.getLast? = some x) :
    (s.transEntry x).toNat = s.n := by
  induction hp with
  | done => cases hx
  | step _ tail ih =>
    cases tail with
    | done hend => cases hx; exact hend
    | step => exact ih hx

include h

theorem State.ChainFrom.le_of_mem : ∀ x ∈ path, o ≤ x := by
  induction hp with
  | done => simp
  | step hlt _ ih =>
    intro x hx
    rcases List.mem_cons.1 hx with rfl | hx
    · exact Nat.le_refl _
    · exact Nat.le_of_lt (Nat.lt_of_lt_of_le (h.forward hlt).1 (ih x hx))

theorem State.ChainFrom.pairwise_lt : path.Pairwise (· < ·) := by
  induction hp with
  | done => exact .nil
  | step hlt tail ih =>
    exact .cons (fun x hx => Nat.lt_of_lt_of_le (h.forward hlt).1 (tail.le_of_mem h x hx)) ih

/-- Each transition covers 1 to 64 offsets. -/
theorem State.ChainFrom.length_bounds : o + path.length ≤ s.n ∧ s.n ≤ o + 64 * path.length := by
  induction hp with
  | done hend => simp [hend]
  | step hlt _ ih =>
    have := h.forward hlt
    rw [List.length_cons]
    omega

/-- The bytes of the tokens along the chain, by the cost equation (R129). -/
theorem State.ChainFrom.flatMap_token_length :
    (path.flatMap s.token).length = (s.costEntry o).toNat := by
  induction hp with
  | done hend => exact hend ▸ h.endCost.symm
  | step hlt _ ih =>
    rw [List.flatMap_cons, List.length_append, ih, (h.entryOk hlt).costEquation]
    simp [State.token]

end

/-! ## The read-out walk -/

section
variable {s : State} (h : s.TablesDone)
include h

/-- In DONE the host reads a table entry as it is (R161). -/
theorem State.TablesDone.hostReadValue_trans {o : Nat} (ho : o < s.n) :
    s.hostReadValue { space := spaceTrans, index := o } = (s.transEntry o).setWidth 32 :=
  if_pos (c := s.block.phase = .done ∧ o < s.n) ⟨h.phase, ho⟩

theorem State.TablesDone.hostReadValue_toklen {o : Nat} (ho : o < s.n) :
    s.hostReadValue { space := spaceToklen, index := o } = (s.toklenEntry o).setWidth 32 :=
  if_pos (c := s.block.phase = .done ∧ o < s.n) ⟨h.phase, ho⟩

theorem State.TablesDone.hostReadValue_tok {o b : Nat} (ho : o < s.n)
    (hb : b < (s.toklenEntry o).toNat) :
    s.hostReadValue { space := spaceTok, index := o, byte := b } =
      (s.tokByte o b).setWidth 32 :=
  if_pos (c := s.block.phase = .done ∧ o < s.n ∧ b < (s.toklenEntry o).toNat) ⟨h.phase, ho, hb⟩

/-- The walk reads the token of the entry. -/
theorem State.TablesDone.readToken {o : Nat} (ho : o < s.n) : s.readToken o = s.token o := by
  rw [State.readToken, State.token, h.hostReadValue_toklen ho,
    BitVec.toNat_setWidth_of_le (by decide)]
  refine List.map_congr_left fun b hb => ?_
  rw [h.hostReadValue_tok ho (List.mem_range.1 hb), BitVec.setWidth_setWidth_of_le _ (by decide),
    BitVec.setWidth_eq]

theorem State.TablesDone.walk {fuel o : Nat} {path : List Nat} (hp : s.ChainFrom o path)
    (hf : s.n ≤ o + fuel) (acc : List Byte) :
    s.walk fuel o acc = .stream (acc ++ path.flatMap s.token) := by
  induction hp generalizing fuel acc with
  | done hend => cases fuel <;> simp [State.walk, hend]
  | step hlt tail ih =>
    have := h.forward hlt
    obtain ⟨fuel, rfl⟩ := Nat.exists_eq_add_of_lt (show 0 < fuel by omega)
    simp only [State.walk, h.hostReadValue_trans hlt, h.readToken hlt,
      BitVec.toNat_setWidth_of_le (show 18 ≤ 32 by decide)]
    rw [if_neg (by omega), if_neg (by omega), if_neg (by omega), ih (by omega),
      List.flatMap_cons, List.append_assoc]

end

/-! ## The consumer of the stream -/

/-- A consumer that decodes against the block's REF and N, stands at `o` with `stream` left to read,
and has no event before it. -/
structure State.DecodesAt (s c : State) (o : Nat) (stream : List Byte) : Prop where
  inbox : c.host.inbox = []
  ref : c.cons.ref = s.block.ref
  n : c.cons.n = s.n
  cursor : c.cons.o = o
  stream : c.cons.stream = stream
  verdict : c.cons.verdict = .decoding

/-- With no event pending a decoding consumer runs the token its stream begins with (R80). -/
theorem step_of_decode {c : State} {ins : Instr} {rest : List Byte} (hin : c.host.inbox = [])
    (hv : c.cons.verdict = .decoding) (hd : decode c.cons.stream = .ok (ins, rest)) :
    step c = exec ins (c.setStream rest) := by
  simp [step, systemStep, consumerStep, hin, hv, hd]

/-- At the end of its stream, with `o = N`, it succeeds (R85). -/
theorem State.DecodesAt.step_nil {s c : State} (hc : s.DecodesAt c s.n []) :
    step c = .next (c.setVerdict .success) := by
  simp [step, systemStep, consumerStep, State.endOfStream, decode, hc.inbox, hc.verdict, hc.stream,
    hc.cursor, hc.n]

/-- One step over the token of an entry takes it to the entry's transition, the target written up to
there (R136). -/
theorem State.DecodesAt.step_token {s c : State} {o : Nat} {rest : List Byte}
    (hc : s.DecodesAt c o (s.token o ++ rest)) (h : s.TablesDone) (ho : o < s.n) :
    ∃ d, step c = .next d ∧ s.DecodesAt d (s.transEntry o).toNat rest ∧
      ∀ a, Memory.read d.cons.out a =
        if o ≤ a ∧ a < (s.transEntry o).toNat then some (s.tgtByte a)
        else Memory.read c.cons.out a := by
  obtain ⟨ins, hok⟩ := candidate_ok s h.legal ho (bestCandidate_firstMinimum s o).mem
  have hentry := h.cheapest o ho
  have hdecode : decode c.cons.stream = .ok (ins, rest) := by
    rw [hc.stream, hentry.token, hok.encoded, decode_encode_append hok.wellFormed]
  refine ⟨_, (step_of_decode hc.inbox hc.verdict hdecode).trans
    (hok.rebuilds h.inputs (c.setStream rest) hc.ref hc.n hc.cursor), ?_, fun a => ?_⟩
  · exact ⟨hc.inbox, hc.ref, hc.n, by simp [hc.cursor, hentry.trans], rfl, hc.verdict⟩
  · rw [hentry.trans]
    exact read_emit_targetBytes s (c.setStream rest) hc.cursor _ a

theorem run_succ_of_step {k : Nat} {c d : State} (h : step c = .next d) :
    Host.Core.run Sys2Proof.core (k + 1) c = Host.Core.run Sys2Proof.core k d := by
  simp only [Host.Core.run, Sys2Proof.core, h]

/-- One step per token of the chain and one at the end of the stream: the consumer ends in success,
with OUT equal to the target from where it began. -/
theorem State.ChainFrom.run_success {s : State} (h : s.TablesDone) {o : Nat} {path : List Nat}
    (hp : s.ChainFrom o path) {c : State} (hc : s.DecodesAt c o (path.flatMap s.token)) :
    ∃ t, Host.Core.run Sys2Proof.core (path.length + 1) c = .next t ∧
      t.cons.verdict = .success ∧ t.cons.o = s.n ∧
      ∀ a, a < s.n → Memory.read t.cons.out a =
        if o ≤ a then some (s.tgtByte a) else Memory.read c.cons.out a := by
  induction hp generalizing c with
  | done hend =>
    subst hend
    refine ⟨_, run_succ_of_step hc.step_nil, rfl, hc.cursor, fun a ha => ?_⟩
    rw [if_neg (Nat.not_le.2 ha)]
    rfl
  | @step o path hlt _ ih =>
    obtain ⟨d, hstep, hd, hout⟩ := hc.step_token h hlt
    obtain ⟨t, hrun, hverdict, hcursor, ht⟩ := ih hd
    refine ⟨t, (run_succ_of_step hstep).trans hrun, hverdict, hcursor, fun a ha => ?_⟩
    have := h.forward hlt
    rw [ht a ha, hout]
    by_cases hnew : (s.transEntry o).toNat ≤ a
    · rw [if_pos hnew, if_pos (by omega)]
    · simp [hnew, Nat.lt_of_not_le hnew]

/-! ## The stream of a finished run -/

@[simp] theorem start_tgt (s : State) : s.start.block.tgt = s.block.tgt := by
  rw [State.start]; split <;> rfl

@[simp] theorem blockStep_tgt (s : State) : s.blockStep.block.tgt = s.block.tgt := by
  rcases blockStep_cases s with ⟨-, he⟩ | ⟨-, -, he⟩ | ⟨-, -, he⟩ <;> rw [he] <;> rfl

@[simp] theorem blockSteps_tgt (k : Nat) (s : State) :
    (State.blockSteps k s).block.tgt = s.block.tgt := by
  induction k generalizing s with
  | zero => rfl
  | succ k ih => rw [blockSteps_succ, ih, blockStep_tgt]

/-- A run leaves TGT as it was (R27). -/
@[simp] theorem finished_tgt (s : State) : s.finished.block.tgt = s.block.tgt := by
  rw [State.finished, blockSteps_tgt, start_tgt]

/-- The bytes a consumer must write, as the host wrote them to TGT. -/
theorem State.InputsWritten.read_tgt {s : State} (h : s.InputsWritten) {a : Nat} (ha : a < s.n) :
    Memory.read s.block.tgt a = some (s.tgtByte a) := by
  obtain ⟨x, hx⟩ := Option.isSome_iff_exists.1 (h a ha).2
  simp [State.tgtByte, hx]

/-- Settles O33: the walk and the consumer follow the same chain, one token at a time. -/
theorem streamDecodesToTheTarget : Obligations.StreamDecodesToTheTarget := by
  intro s hs path
  have h := hs.finished_tablesDone
  have hn := finished_n s
  have hpath : s.finished.ChainFrom 0 path := h.chainFrom_chain (Nat.zero_le _) (by omega)
  have hlength := hpath.length_bounds h
  have hbytes := hpath.flatMap_token_length h
  have hwalk := h.walk hpath (fuel := s.finished.n) (by omega) []
  obtain ⟨t, hrun, hverdict, hcursor, hout⟩ := hpath.run_success h
    (c := (s.finished.setInbox []).beginDecode s.finished.block.ref s.n
      (path.flatMap s.finished.token)) ⟨rfl, rfl, hn.symm, rfl, rfl, rfl⟩
  have hcost := h.cost_le 0 (Nat.zero_le _)
  refine ⟨hpath.pairwise_lt h, by omega, by omega,
    fun o ho => (hpath.getLast ho).trans hn, path.flatMap s.finished.token, hwalk, rfl, hbytes,
    by omega, _, t, hrun, hverdict, hcursor.trans hn, fun a ha => ?_⟩
  rw [hout a (by omega), if_pos (Nat.zero_le a), ← finished_tgt s, h.inputs.read_tgt (by omega)]

end Sys2Proof.Machine
end

section
/-! PROOFS. The host's writes, its reads of the control registers and the completion step
(43_control_and_host.md R153, R156, R158 to R160). -/

namespace Sys2Proof.Machine

open Sys2Proof

/-! ## Writes -/

/-- In RUN a host write is dropped, whatever its target and value (R158). -/
theorem hostWrite_of_run {s : State} (hp : s.block.phase = .run) (tg : Target) (v : Word) :
    s.hostWrite tg v = s.raise .busyWrite := by
  rcases hostWrite_cases s tg v with ⟨-, he⟩ | ⟨hn, -⟩ | ⟨hn, -⟩ | ⟨hn, -⟩
  · exact he
  all_goals exact absurd hp hn

/-- Settles O40: the one outcome of a write in RUN is the raised flag. -/
theorem writesInRunAreDropped : Obligations.WritesInRunAreDropped :=
  fun _ tg v hp => hostWrite_of_run hp tg v

/-- Settles O42: of the outcomes of a write, RUN, START and an input write are shut out. -/
theorem otherWritesAreIgnored : Obligations.OtherWritesAreIgnored := by
  intro s tg v hp hin hstart
  rcases hostWrite_cases s tg v with
    ⟨hrun, -⟩ | ⟨-, he⟩ | ⟨-, hspace, hindex, hbit, -⟩ | ⟨-, hinput, -⟩
  · exact absurd hrun hp
  · exact he
  · exact absurd ⟨hspace, hindex, hbit⟩ hstart
  · exact absurd hinput (by simp [hin])

/-! ## Reads of the control registers -/

/-- A read of the control space is a read of the register, in every phase (R160). -/
@[simp] theorem hostReadValue_csr (s : State) (n b : Nat) :
    s.hostReadValue ⟨spaceCsr, n, b⟩ = s.block.csrWord n := rfl

@[simp] theorem csrWord_ctrl (b : Block) : b.csrWord 0 = 0 := rfl
@[simp] theorem csrWord_status (b : Block) : b.csrWord 1 = b.statusWord := rfl
@[simp] theorem csrWord_nlen (b : Block) : b.csrWord 2 = b.nlen.setWidth 32 := rfl
@[simp] theorem csrWord_cur (b : Block) : b.csrWord 3 = b.cur.setWidth 32 := rfl

theorem csrWord_reserved (b : Block) {n : Nat} (h : 4 ≤ n) : b.csrWord n = 0 := by
  rw [Block.csrWord, if_neg (by omega), if_neg (by omega), if_neg (by omega)]

/-- Concatenation of bit fields as a sum: the high field is shifted past the low one. -/
theorem toNat_append_eq_add {m n : Nat} (x : BitVec m) (y : BitVec n) :
    (x ++ y).toNat = 2 ^ n * x.toNat + y.toNat := by
  rw [BitVec.toNat_append, ← Nat.shiftLeft_add_eq_or_of_lt y.isLt, Nat.shiftLeft_eq, Nat.mul_comm]

/-- The fields of STATUS as a number (R23). -/
theorem statusWord_toNat (b : Block) :
    b.statusWord.toNat = b.phase.code.toNat + 4 * b.errCfg.toNat + 8 * b.errBusyWr.toNat := by
  simp only [Block.statusWord, toNat_append_eq_add, BitVec.toNat_ofBool, BitVec.ofNat_eq_ofNat,
    BitVec.toNat_zero]
  omega

/-- An 18-bit register keeps its value in a 32-bit word. -/
theorem offset_setWidth_word_toNat (c : Offset) : (c.setWidth 32 : Word).toNat = c.toNat :=
  BitVec.toNat_setWidth_of_le (by decide)

/-- Settles O43: one register at a time; the frame is that of any read. -/
theorem controlRegistersReadAsSpecified : Obligations.ControlRegistersReadAsSpecified := by
  intro s b
  simp only [hostReadValue_csr, csrWord_ctrl, csrWord_status, csrWord_nlen, csrWord_cur]
  refine ⟨trivial, statusWord_toNat s.block, offset_setWidth_word_toNat s.block.nlen,
    offset_setWidth_word_toNat s.block.cur, fun n hn => csrWord_reserved s.block hn, fun n => ?_⟩
  exact ⟨s.hostRead_block _, s.hostRead_cons _, s.hostRead_host_rdata _⟩

/-! ## The completion step -/

/-- With no event pending and no consumer decoding, the step is the block's. -/
theorem step_of_no_event {s : State} (hin : s.host.inbox = []) (hv : s.cons.verdict ≠ .decoding) :
    step s = .next s.blockStep := by
  simp only [step, systemStep, hin, if_neg hv]

/-- The completion step (R153). -/
theorem blockStep_of_cur_zero {s : State} (hp : s.block.phase = .run) (h0 : s.block.cur.toNat = 0) :
    s.blockStep = s.setPhase .done := by
  rcases blockStep_cases s with ⟨hn, -⟩ | ⟨-, -, he⟩ | ⟨-, hpos, -⟩
  · exact absurd hp hn
  · exact he
  · omega

/-- Settles O50: nothing else can move, and the block completes. -/
theorem completionStepOnlySetsDone : Obligations.CompletionStepOnlySetsDone := by
  intro s hp h0 hin hv
  rw [step_of_no_event hin hv, blockStep_of_cur_zero hp h0]
  rfl

end Sys2Proof.Machine
end

section
/-! PROOFS. START with an illegal NLEN (60_exceptions.md R170). -/

namespace Sys2Proof.Machine

open Sys2Proof

/-- Outside RUN a write of CTRL with bit 0 set is START (R151, R170). -/
theorem hostWrite_ctrl_eq_start {s : State} (hp : s.block.phase ≠ .run) (b : Nat) {v : Word}
    (hv : startBit v = true) : s.hostWrite ⟨spaceCsr, 0, b⟩ v = s.start := by
  simp only [State.hostWrite, if_neg hp, State.writeCsr, hv, if_true]

/-- START with NLEN above NMAX is refused: it only raises the flag (R170). -/
theorem start_of_nlen_gt {s : State} (hn : Config.NMAX < s.n) : s.start = s.raise .cfgRange :=
  if_pos hn

/-- Of the outcomes of a write, only the refused START changes ERR_CFG. -/
theorem refused_start_of_hostWrite_errCfg_ne {s : State} {tg : Target} {v : Word}
    (hne : (s.hostWrite tg v).block.errCfg ≠ s.block.errCfg) :
    s.block.phase ≠ .run ∧ Config.NMAX < s.n ∧ tg.space = spaceCsr ∧ tg.index = 0 ∧
      startBit v = true := by
  rcases hostWrite_cases s tg v with
    ⟨-, he⟩ | ⟨-, he⟩ | ⟨hp, hspace, hindex, hbit, ⟨hn, -⟩ | ⟨-, he⟩⟩ | ⟨-, -, he | ⟨-, he | he⟩⟩
  case inr.inr.inl.inl => exact ⟨hp, hn, hspace, hindex, hbit⟩
  all_goals exact absurd (by simp [he]) hne

/-- Settles O39: such a write is a refused START, the one outcome of a write that changes
ERR_CFG. -/
theorem illegalStartIsRefused : Obligations.IllegalStartIsRefused :=
  ⟨fun _ b _ hp hn hv => (hostWrite_ctrl_eq_start hp b hv).trans (start_of_nlen_gt hn),
    fun _ _ _ => refused_start_of_hostWrite_errCfg_ne⟩

end Sys2Proof.Machine
end

section
/-! PROOFS. What the decoder accepts, and the round trip between tokens and their bytes
(30_encoding.md R61 to R69, R75). -/

namespace Sys2Proof

/-! ## The address bytes of a token taken from its bytes -/

section
variable (tag al am : Byte)

theorem addrHigh_addrOf : addrHigh (addrOf tag al am) = tag.getLsbD 0 := by
  have h : (addrHigh (addrOf tag al am)).toNat = (tag.getLsbD 0).toNat := by
    have := al.isLt
    have := am.isLt
    rw [addrHigh_toNat, addrOf_toNat, getLsbD_zero_toNat]
    omega
  exact Function.LeftInverse.injective Bool.ofNat_toNat h

theorem addrLow_addrOf : addrLow (addrOf tag al am) = al := by
  have := al.isLt
  apply BitVec.eq_of_toNat_eq
  rw [addrLow_toNat, addrOf_toNat]
  omega

theorem addrMid_addrOf : addrMid (addrOf tag al am) = am := by
  have := al.isLt
  have := am.isLt
  apply BitVec.eq_of_toNat_eq
  rw [addrMid_toNat, addrOf_toNat]
  omega

end

/-! ## The round trip from the bytes -/

/-- The header of an EXACT token is the one its length and address give. -/
theorem encode_exactMatch_of_tag {tag : Byte} (h2 : 0x02 ≤ tag.toNat) (h7F : tag.toNat ≤ 0x7F)
    (al am : Byte) :
    encode (.exactMatch (exactLen tag) (addrOf tag al am)) = [tag, al, am] := by
  rw [encode, addrHigh_addrOf, exactTag_of_fields h2 h7F, addrLow_addrOf, addrMid_addrOf]

theorem encode_approxMatch_of_tag {tag : Byte} (h : 0x80 ≤ tag.toNat) (al am : Byte)
    (bm ps : List Byte) :
    encode (.approxMatch (approxLen tag) (addrOf tag al am) bm ps) = [tag, al, am] ++ bm ++ ps := by
  rw [encode, addrHigh_addrOf, approxTag_of_fields h, addrLow_addrOf, addrMid_addrOf]

/-- What the decoder accepts is a well-formed token followed by the rest: one case for each range of
the tag. -/
theorem encode_of_decode {bs rest : List Byte} {i : Instr} (h : decode bs = .ok (i, rest)) :
    i.wellFormed = true ∧ bs = encode i ++ rest := by
  cases bs with
  | nil => cases h
  | cons tag bs =>
    simp only [decode] at h
    split at h
    · next h0 =>
      obtain rfl : tag = 0x00 := BitVec.eq_of_toNat_eq h0
      split at h
      · cases h; exact ⟨rfl, rfl⟩
      · cases h
    split at h
    · next h1 =>
      obtain rfl : tag = 0x01 := BitVec.eq_of_toNat_eq h1
      split at h
      · cases h; exact ⟨rfl, rfl⟩
      · cases h
    next h0 h1 =>
    have h2 : 0x02 ≤ tag.toNat := by omega
    split at h
    · split at h
      · next h7F =>
        cases h
        exact ⟨exact_wellFormed.2 (exactLen_bounds h2 h7F), by
          rw [encode_exactMatch_of_tag h2 h7F]; rfl⟩
      · next h7F =>
        obtain ⟨bm, ps, rfl, rfl, hbitmap, hpatches⟩ := decodeApproxBody_ok h
        obtain ⟨hmin, hmax⟩ := approxLen_bounds tag
        exact ⟨approx_wellFormed.2 ⟨hmin, hmax, hbitmap, hpatches⟩, by
          rw [encode_approxMatch_of_tag (by omega)]; simp⟩
    · cases h

/-- Settles O1: the round trip from the token, one case per format. -/
theorem decodeOfEncodeIsTheToken : Obligations.DecodeOfEncodeIsTheToken :=
  fun _ rest h => decode_encode_append h rest

/-- Settles O2: the round trip from the bytes, one case per range of the tag. -/
theorem encodeOfDecodeIsTheBytes : Obligations.EncodeOfDecodeIsTheBytes :=
  fun _ _ _ h => encode_of_decode h

/-- The bounds of Laws/PerInstr.lean, put together over the four formats (R60, R75). -/
theorem encode_length_bounds {i : Instr} (h : i.wellFormed = true) :
    2 ≤ (encode i).length ∧ (encode i).length ≤ 75 := by
  cases i with
  | lit1 x => exact Laws.EncodedLength.lit1 x h
  | lit2 x0 x1 => exact Laws.EncodedLength.lit2 x0 x1 h
  | exactMatch len addr => exact Laws.EncodedLength.exactMatch len addr h
  | approxMatch len addr bm ps => exact Laws.EncodedLength.approxMatch len addr bm ps h

/-- Settles O4: the announced length is the encoding's, which is bounded per token. -/
theorem tokenLengthFromItsOwnBytes : Obligations.TokenLengthFromItsOwnBytes :=
  fun _ rest h => ⟨toklen_encode_append h rest, encode_length_bounds h⟩

/-- Settles O6: six closed decodings, evaluated. -/
theorem sampleWordsDecode : Obligations.SampleWordsDecode := by
  unfold Obligations.SampleWordsDecode
  decide

end Sys2Proof
end

section
/-! PROOFS. Tokens a consumer rejects, and the frame of every token (30_encoding.md R80, R82, R85;
93_implementation_defined.md U4, U5). -/

namespace Sys2Proof.Machine

open Sys2Proof

/-! ## Rejections -/

theorem exec_lit1_overrun {s : State} (x : Byte) (h : s.cons.n ≤ s.cons.o) :
    exec (.lit1 x) s = .next (s.reject .overrun).refresh :=
  if_neg (Nat.not_lt.2 h)

theorem exec_lit2 (s : State) (x0 x1 : Byte) :
    exec (.lit2 x0 x1) s = .next (s.reject .lit2).refresh := rfl

theorem exec_exactMatch_windowFault {s : State} {len : Nat} {addr : RefAddr} {why : Reject}
    (h : s.windowFault len addr = some why) :
    exec (.exactMatch len addr) s = .next (s.reject why).refresh := by
  simp only [exec, execExactMatch, h]

theorem exec_approxMatch_windowFault {s : State} {len : Nat} {addr : RefAddr} {why : Reject}
    (h : s.windowFault len addr = some why) (bm ps : List Byte) :
    exec (.approxMatch len addr bm ps) s = .next (s.reject why).refresh := by
  simp only [exec, execApproxMatch, h]

theorem exec_approxMatch_padBit {s : State} {len : Nat} {addr : RefAddr} {bm : List Byte}
    (ho : s.cons.o + len ≤ s.cons.n) (ha : addr.toNat + len ≤ s.cons.n)
    (hpad : padBits len bm = true) (ps : List Byte) :
    exec (.approxMatch len addr bm ps) s = .next (s.reject .padBit).refresh := by
  simp only [exec, execApproxMatch, windowFault_none.2 ⟨ho, ha⟩, hpad, if_true]

/-- Settles O12: the write past `N` is the first thing each of the three tokens tests. -/
theorem writePastTheEndFails : Obligations.WritePastTheEndFails := fun _ =>
  ⟨fun x h => ⟨_, exec_lit1_overrun x h, rfl, rfl, rfl⟩,
    fun _ addr h => ⟨_, exec_exactMatch_windowFault (windowFault_overrun addr h), rfl, rfl, rfl⟩,
    fun _ addr bm ps h =>
      ⟨_, exec_approxMatch_windowFault (windowFault_overrun addr h) bm ps, rfl, rfl, rfl⟩⟩

/-- Settles O13: the reference window is tested next, then the unused bits of the bitmap. -/
theorem badWindowsAndPadBitsAreRejected : Obligations.BadWindowsAndPadBitsAreRejected :=
  fun _ _ _ ho =>
    ⟨fun ha => ⟨_, exec_exactMatch_windowFault (windowFault_refWindow ho ha), rfl, rfl⟩,
      fun bm ps ha =>
        ⟨_, exec_approxMatch_windowFault (windowFault_refWindow ho ha) bm ps, rfl, rfl⟩,
      fun _ ps ha hpad => ⟨_, exec_approxMatch_padBit ho ha hpad ps, rfl, rfl⟩⟩

/-- Settles O15: a token rejects, or it writes from `o` on and moves `o` past what it wrote. -/
theorem tokensChangeOnlyOutputAndCursor : Obligations.TokensChangeOnlyOutputAndCursor := by
  intro i s t h
  rcases exec_cases h with ⟨why, rfl⟩ | ⟨bytes, rfl, -⟩
  · exact ⟨rfl, rfl, rfl, rfl, rfl, Nat.le_refl _, fun _ _ => rfl⟩
  · exact ⟨rfl, rfl, rfl, rfl, rfl, Nat.le_add_right _ _, fun _ ha => read_emit_outside s ha⟩

/-! ## The tokens of candidates -/

/-- The token of every candidate, at any offset of any state, is the encoding of a well-formed token
the block may emit (R130, R141). -/
theorem candidate_token_eq_encode (s : State) {i : Nat} {c : Candidate}
    (hc : c ∈ s.candidates i) :
    ∃ ins, c.token = encode ins ∧ ins.wellFormed = true ∧ isEmitted ins = true := by
  simp only [State.candidates, List.mem_cons, List.mem_append, State.approxCandidates,
    List.mem_flatMap, State.exactCandidates, List.mem_map, List.mem_range'_1] at hc
  rcases hc with rfl | ⟨j, -, hc⟩ | ⟨len, ⟨h1, hlen⟩, rfl⟩
  · exact ⟨_, (encode_litInstr s i).symm, rfl, rfl⟩
  · simp only [State.approxCandidatesAt] at hc
    split at hc
    · cases hc
    · next hrun =>
      obtain ⟨k, hk, rfl⟩ := List.mem_map.1 hc
      have hk := List.mem_range'_1.1 hk
      have hlim := msLim_le s i j
      exact ⟨_, (encode_approxInstr s i j k).symm,
        approxInstr_wellFormed s i j (by omega) (by omega), rfl⟩
  · have h63 : Config.EXACT_LMAX = 63 := rfl
    exact ⟨_, (encode_exactInstr len _).symm, exact_wellFormed.2 ⟨h1, by omega⟩, rfl⟩

theorem candidate_not_lit2 (s : State) {i : Nat} {c : Candidate} (hc : c ∈ s.candidates i)
    (x0 x1 : Byte) (rest : List Byte) : decode c.token ≠ .ok (.lit2 x0 x1, rest) := by
  intro hd
  obtain ⟨ins, htoken, hwf, hemitted⟩ := candidate_token_eq_encode s hc
  have hback := decode_encode_append hwf []
  rw [List.append_nil, ← htoken, hd] at hback
  cases hback
  cases hemitted

/-- Settles O11: the rejection is the whole meaning of LIT2, and a candidate's token encodes
another. -/
theorem lit2IsRejectedAndNeverBuilt : Obligations.Lit2IsRejectedAndNeverBuilt :=
  ⟨fun s x0 x1 => ⟨encode_lit2_length x0 x1, _, exec_lit2 s x0 x1, rfl, rfl, rfl, rfl, rfl, rfl,
    rfl, rfl⟩, fun s _ _ hc => candidate_not_lit2 s hc⟩

end Sys2Proof.Machine
end

section
/-! PROOFS. What the match scanner measures and what the token encoder renders
(40_match_scanner.md R90 to R97, 42_token_encoder.md R140 to R143). -/

namespace Sys2Proof.Machine

open Sys2Proof

/-! ## Rendered tokens -/

/-- The patch bytes are those of the positions whose bitmap bit is 1. -/
theorem tePatches_eq_filter_bitAt (s : State) (i j k : Nat) :
    s.tePatches i j k = ((List.range k).filter (bitAt (s.teBitmap i j k))).map
      (fun p => s.refByte (j + p) ^^^ s.tgtByte (i + p)) := by
  have hbits : (List.range k).filter (bitAt (s.teBitmap i j k)) =
      (List.range k).filter (s.differs i j) :=
    List.filter_congr fun p hp => by simp [bitAt_teBitmap, List.mem_range.1 hp]
  rw [hbits, State.tePatches]

theorem bitAt_teBitmap_iff (s : State) {i j k p : Nat} (hp : p < k) :
    bitAt (s.teBitmap i j k) p = true ↔ s.tgtByte (i + p) ≠ s.refByte (j + p) := by
  rw [bitAt_teBitmap, decide_eq_true hp, Bool.true_and, differs_eq_true]

/-- Settles O16: each rendering is the encoding of the token meant. -/
theorem renderedTokensDecode : Obligations.RenderedTokensDecode := by
  refine fun s rest => ⟨fun i => ?_, fun len a h1 h63 => ?_, fun i j k h1 h64 _ => ?_⟩
  · exact decode_encode_append (i := .lit1 (s.refByte i ^^^ s.tgtByte i)) rfl rest
  · exact decode_encode_append (exact_wellFormed.2 ⟨h1, h63⟩) rest
  · exact ⟨s.teBitmap i j k, s.tePatches i j k,
      decode_encode_append (approxInstr_wellFormed s i j h1 h64) rest,
      fun p hp => bitAt_teBitmap_iff s hp, padBits_teBitmap s i j k,
      tePatches_eq_filter_bitAt s i j k⟩

/-! ## Runs and extensions -/

/-- A length within the bound is a run length exactly when all its positions match (R90). -/
theorem le_msRunlen_iff (s : State) {i j m : Nat} (hm : m ≤ s.msLim i j) :
    m ≤ s.msRunlen i j ↔ ∀ p, p < m → s.tgtByte (i + p) = s.refByte (j + p) := by
  constructor
  · intro h p hp
    exact differs_eq_false.1 (differs_of_lt_runlen (Nat.lt_of_lt_of_le hp h))
  · intro h
    by_contra hlt
    have hlt := Nat.lt_of_not_le hlt
    exact differs_eq_true.1 (differs_at_runlen (Nat.lt_of_lt_of_le hlt hm)) (h _ hlt)

/-- Settles O17: a matching length past the run would cross the mismatch that ends it. -/
theorem runLengthIsTheLongest : Obligations.RunLengthIsTheLongest :=
  fun s i j _ hm => ⟨(le_msRunlen_iff s hm).symm, msRunlen_le s i j⟩

theorem msDiffs_mono (s : State) (i j : Nat) {k l : Nat} (h : k ≤ l) :
    s.msDiffs i j k ≤ s.msDiffs i j l := by
  induction l, h using Nat.le_induction with
  | base => exact Nat.le_refl _
  | succ l _ ih => rw [msDiffs_succ]; omega

/-- Past a run that stops before the bound there is a mismatch. -/
theorem msDiffs_pos (s : State) {i j k : Nat} (h : s.msRunlen i j < k) (hk : k ≤ s.msLim i j) :
    0 < s.msDiffs i j k := by
  have hfirst : s.msDiffs i j (s.msRunlen i j + 1) = 1 := by
    rw [msDiffs_succ, msDiffs_runlen s i j (Nat.le_refl _),
      differs_at_runlen (Nat.lt_of_lt_of_le h hk)]
    rfl
  calc 0 < s.msDiffs i j (s.msRunlen i j + 1) := by rw [hfirst]; exact Nat.one_pos
    _ ≤ s.msDiffs i j k := msDiffs_mono s i j h

theorem msDiffs_eq_zero_iff (s : State) {i j k : Nat} (h : s.msRunlen i j ≤ k)
    (hk : k ≤ s.msLim i j) : s.msDiffs i j k = 0 ↔ k = s.msRunlen i j := by
  constructor
  · intro h0
    by_contra hne
    have := msDiffs_pos s (Nat.lt_of_le_of_ne h (Ne.symm hne)) hk
    omega
  · rintro rfl
    exact msDiffs_runlen s i j (Nat.le_refl _)

/-- Settles O19: the mismatches lie after the run, at most one per position, and the position
right after the run is one. -/
theorem mismatchesOfAnExtension : Obligations.MismatchesOfAnExtension := by
  intro s i j k hpos h hk
  obtain ⟨hi, hj⟩ := msLim_bounds s i j (by omega)
  have hlim := msLim_le s i j
  have hle := msDiffs_le s i j h
  have hsucc := msDiffs_succ s i j k
  have hbit := (s.differs i j k).toNat_le
  exact ⟨differs_eq_false.1 (differs_of_lt_runlen hpos), by omega, by omega, hle, by omega,
    msDiffs_eq_zero_iff s h hk, by omega, by omega⟩

/-! ## The size of an approximate token -/

theorem msAsize_eq (k d : Nat) : msAsize k d = 3 + (k + 7) / 8 + d := by
  rw [msAsize, ceil8_eq]
  rfl

theorem msAsize_bounds {k d : Nat} (h1 : 1 ≤ k) (h64 : k ≤ 64) (hd : d ≤ 63) :
    4 ≤ msAsize k d ∧ msAsize k d ≤ 74 := by
  rw [msAsize_eq]
  omega

/-- Settles O20: an extension of a positive run has at most 63 mismatches. -/
theorem approxTokenSize : Obligations.ApproxTokenSize := by
  refine ⟨fun k d => ⟨msAsize_eq k d, msAsize_bounds⟩,
    fun s i j k => ⟨teApprox_length s i j k, fun hpos h hk => ?_⟩⟩
  have hlim := msLim_le s i j
  have hle := msDiffs_le s i j h
  rw [teApprox_length]
  exact msAsize_bounds (by omega) (by omega) (by omega)

/-! ## The scan -/

/-- Where the run at a pair of offsets is empty, the first bytes differ. -/
theorem ne_of_msRunlen_zero {s : State} {i j : Nat} (hi : i < s.n) (hj : j < s.n)
    (h : s.msRunlen i j = 0) : s.tgtByte i ≠ s.refByte j := by
  have hdiff := differs_at_runlen (h ▸ msLim_pos hi hj : s.msRunlen i j < s.msLim i j)
  rw [h] at hdiff
  exact differs_eq_true.1 hdiff

/-- Settles O21: `scan_best` over all addresses. -/
theorem scanFindsTheBestPair : Obligations.ScanFindsTheBestPair := by
  intro s w hn
  obtain ⟨-, hmax, hbest⟩ := scan_best s w s.n hn
  exact ⟨hmax, hbest, fun h0 hi j hj =>
    ne_of_msRunlen_zero hi hj (Nat.le_zero.1 (h0 ▸ hmax j hj))⟩

end Sys2Proof.Machine
end

section
/-! PROOFS. The control state, the flags and the inputs over one step (10_state.md R15 to R18, R27,
43_control_and_host.md R150). -/

namespace Sys2Proof.Machine

open Sys2Proof

/-! ## The flags -/

theorem blockStep_flags (s : State) :
    s.blockStep.block.errCfg = s.block.errCfg ∧
      s.blockStep.block.errBusyWr = s.block.errBusyWr := by
  rcases blockStep_cases s with ⟨-, he⟩ | ⟨-, -, he⟩ | ⟨-, -, he⟩ <;> rw [he] <;> exact ⟨rfl, rfl⟩

/-- A host write clears no flag. -/
theorem hostWrite_flags_sticky (s : State) (tg : Target) (v : Word) :
    (s.block.errCfg = true → (s.hostWrite tg v).block.errCfg = true) ∧
    (s.block.errBusyWr = true → (s.hostWrite tg v).block.errBusyWr = true) := by
  rcases hostWrite_cases s tg v with
    ⟨-, he⟩ | ⟨-, he⟩ | ⟨-, -, -, -, ⟨-, he⟩ | ⟨-, he⟩⟩ | ⟨-, -, he | ⟨-, he | he⟩⟩ <;>
  simp [he]

/-- Of the outcomes of a write, only the dropped write in RUN changes ERR_BUSYWR. -/
theorem run_of_hostWrite_errBusyWr_ne {s : State} {tg : Target} {v : Word}
    (hne : (s.hostWrite tg v).block.errBusyWr ≠ s.block.errBusyWr) : s.block.phase = .run := by
  rcases hostWrite_cases s tg v with
    ⟨hp, -⟩ | ⟨-, he⟩ | ⟨-, -, -, -, ⟨-, he⟩ | ⟨-, he⟩⟩ | ⟨-, -, he | ⟨-, he | he⟩⟩
  case inl => exact hp
  all_goals exact absurd (by simp [he]) hne

/-- Over any step but Reset the flags stay, or the step is a host write. -/
theorem step_flags_cases {s t : State} (h : step s = .next t) (hr : s.nextEvent ≠ some .reset) :
    (t.block.errCfg = s.block.errCfg ∧ t.block.errBusyWr = s.block.errBusyWr) ∨
    ∃ tg v, s.nextEvent = some (.write tg v) ∧ t.block = (s.hostWrite tg v).block := by
  rcases step_block_cases h with hb | hw | ⟨he, -⟩ | ⟨-, hb⟩
  · exact .inl (by simp [hb])
  · exact .inr hw
  · exact absurd he hr
  · exact .inl (hb ▸ blockStep_flags s)

/-- Settles O47: a flag moves only by a host write, and then by its own misuse. -/
theorem flagsAreStickyAndRaisedOnlyByMisuse : Obligations.FlagsAreStickyAndRaisedOnlyByMisuse := by
  intro s t hstep hr
  rcases step_flags_cases hstep hr with ⟨hcfg, hbusy⟩ | ⟨tg, v, he, hb⟩
  · exact ⟨hcfg.trans, hbusy.trans, fun h0 h1 => by simp [hcfg, h0] at h1,
      fun h0 h1 => by simp [hbusy, h0] at h1⟩
  · rw [hb]
    obtain ⟨hcfg, hbusy⟩ := hostWrite_flags_sticky s tg v
    refine ⟨hcfg, hbusy, fun h0 h1 => ?_, fun h0 h1 => ?_⟩
    · obtain ⟨hp, hn, hspace, hindex, hbit⟩ :=
        refused_start_of_hostWrite_errCfg_ne (s := s) (tg := tg) (v := v) (by simp [h0, h1])
      obtain ⟨space, index, b⟩ := tg
      subst hspace hindex
      exact ⟨hp, hn, b, v, he, hbit⟩
    · exact ⟨run_of_hostWrite_errBusyWr_ne (tg := tg) (v := v) (by simp [h0, h1]), tg, v, he⟩

/-! ## PHASE and CUR -/

/-- What a host write does to PHASE and CUR: nothing, START, or an accepted input. -/
theorem hostWrite_control_cases (s : State) (tg : Target) (v : Word) :
    ((s.hostWrite tg v).block.phase = s.block.phase ∧
      (s.hostWrite tg v).block.cur = s.block.cur) ∨
    (s.block.phase ≠ .run ∧ s.n ≤ Config.NMAX ∧ (∃ b, tg = ⟨spaceCsr, 0, b⟩) ∧
      startBit v = true ∧ (s.hostWrite tg v).block.phase = .run ∧
      (s.hostWrite tg v).block.cur = s.block.nlen) ∨
    (s.block.phase ≠ .run ∧ tg.isInput = true ∧ (s.hostWrite tg v).block.phase = .idle ∧
      (s.hostWrite tg v).block.cur = s.block.cur) := by
  rcases hostWrite_cases s tg v with
    ⟨-, he⟩ | ⟨-, he⟩ | ⟨hp, hspace, hindex, hbit, ⟨-, he⟩ | ⟨hn, he⟩⟩ |
    ⟨hp, hin, he | ⟨-, he | he⟩⟩ <;> rw [he]
  · exact .inl ⟨rfl, rfl⟩
  · exact .inl ⟨rfl, rfl⟩
  · exact .inl ⟨rfl, rfl⟩
  · obtain ⟨space, index, b⟩ := tg
    subst hspace hindex
    exact .inr (.inl ⟨hp, hn, ⟨b, rfl⟩, hbit, rfl, rfl⟩)
  all_goals exact .inr (.inr ⟨hp, hin, rfl, rfl⟩)

/-- What a step does to PHASE and CUR: nothing, START, an accepted input, Reset, or, at the block's
turn in RUN, the completion step or an offset step. -/
theorem step_control_cases {s t : State} (h : step s = .next t) :
    (t.block.phase = s.block.phase ∧ t.block.cur = s.block.cur) ∨
    (s.Starts ∧ t.block.phase = .run ∧ t.block.cur = s.block.nlen) ∨
    (s.block.phase ≠ .run ∧ t.block.phase = .idle ∧ t.block.cur = s.block.cur ∧
      ∃ tg v, s.nextEvent = some (.write tg v) ∧ tg.isInput = true) ∨
    (s.nextEvent = some .reset ∧ t.block.phase = .idle ∧ t.block.cur = 0) ∨
    (s.BlockMoves ∧ s.block.phase = .run ∧ s.block.cur.toNat = 0 ∧ t.block.phase = .done ∧
      t.block.cur = s.block.cur) ∨
    (s.BlockMoves ∧ s.block.phase = .run ∧ t.block.phase = .run ∧
      t.block.cur.toNat + 1 = s.block.cur.toNat) := by
  rcases step_block_cases h with hb | ⟨tg, v, he, hb⟩ | ⟨he, hb⟩ | ⟨hmoves, hb⟩ <;> rw [hb]
  · exact .inl ⟨rfl, rfl⟩
  · rcases hostWrite_control_cases s tg v with
      hsame | ⟨hp, hn, ⟨b, rfl⟩, hbit, hphase, hcur⟩ | ⟨hp, hin, hphase, hcur⟩
    · exact .inl hsame
    · exact .inr (.inl ⟨⟨hp, hn, b, v, he, hbit⟩, hphase, hcur⟩)
    · exact .inr (.inr (.inl ⟨hp, hphase, hcur, tg, v, he, hin⟩))
  · exact .inr (.inr (.inr (.inl ⟨he, rfl, rfl⟩)))
  · rcases blockStep_cases s with ⟨-, hstep⟩ | ⟨hp, h0, hstep⟩ | ⟨hp, hpos, hstep⟩ <;> rw [hstep]
    · exact .inl ⟨rfl, rfl⟩
    · exact .inr (.inr (.inr (.inr (.inl ⟨hmoves, hp, h0, rfl, rfl⟩))))
    · refine .inr (.inr (.inr (.inr (.inr ⟨hmoves, hp, hp, ?_⟩))))
      rw [offsetStep_cur hpos]
      omega

/-- Settles O48: the cases of a step that leave PHASE are shut out. -/
theorem phaseChangesOnlyAsTabled : Obligations.PhaseChangesOnlyAsTabled := by
  intro s t hstep hne
  rcases step_control_cases hstep with ⟨hphase, -⟩ | ⟨hstarts, hphase, -⟩ | ⟨hp, hphase, -, hin⟩ |
    ⟨he, hphase, -⟩ | ⟨hmoves, hp, h0, hphase, -⟩ | ⟨-, hp, hphase, -⟩
  · exact absurd hphase hne
  · exact .inl ⟨hstarts, hphase⟩
  · have hdone : s.block.phase = .done := by
      cases hs : s.block.phase with
      | idle => exact absurd (hphase.trans hs.symm) hne
      | run => exact absurd hs hp
      | done => rfl
    exact .inr (.inr (.inl ⟨hdone, hphase, hin⟩))
  · exact .inr (.inr (.inr ⟨he, hphase⟩))
  · exact .inr (.inl ⟨hmoves, hp, h0, hphase⟩)
  · exact absurd (hphase.trans hp.symm) hne

/-- Settles O49: of the cases of a step, START, Reset and an offset step move CUR. -/
theorem cursorOnlyCountsDown : Obligations.CursorOnlyCountsDown := by
  intro s t hstep
  rcases step_control_cases hstep with ⟨-, hcur⟩ | ⟨hstarts, -, hcur⟩ | ⟨-, -, hcur, -⟩ |
    ⟨he, -, hcur⟩ | ⟨-, -, -, -, hcur⟩ | ⟨hmoves, hp, -, hcur⟩
  · exact .inl hcur
  · exact .inr (.inr (.inl ⟨hstarts, hcur⟩))
  · exact .inl hcur
  · exact .inr (.inr (.inr ⟨he, hcur⟩))
  · exact .inl hcur
  · exact .inr (.inl ⟨hmoves, hp, hcur⟩)

/-! ## The inputs -/

theorem blockStep_inputs (s : State) :
    s.blockStep.block.ref = s.block.ref ∧ s.blockStep.block.tgt = s.block.tgt ∧
      s.blockStep.block.nlen = s.block.nlen := by
  rcases blockStep_cases s with ⟨-, he⟩ | ⟨-, -, he⟩ | ⟨-, -, he⟩ <;> rw [he] <;>
    exact ⟨rfl, rfl, rfl⟩

/-- Settles O52: a host write in RUN is dropped, and the block writes no input. -/
theorem inputsAreImmutableDuringARun : Obligations.InputsAreImmutableDuringARun := by
  intro s t hstep hr hquiet
  rcases step_block_cases hstep with hb | ⟨tg, v, he, hb⟩ | ⟨he, -⟩ | ⟨-, hb⟩
  · simp [hb]
  · rcases hquiet with hp | hno
    · simp [hb, hostWrite_of_run hp]
    · exact absurd he (hno tg v)
  · exact absurd he hr
  · exact hb ▸ blockStep_inputs s

end Sys2Proof.Machine
end

section
/-! PROOFS. The state stays well formed over every step (10_state.md R15 to R17, R26,
20_memory.md R45, 30_encoding.md R85). -/

namespace Sys2Proof.Machine

open Sys2Proof

/-! ## The consumer -/

/-- What a step does to the consumer: nothing, a load, or the consumer's own step. -/
theorem step_cons_cases {s t : State} (h : step s = .next t) :
    t.cons = s.cons ∨
    (∃ ref n stream, t.cons = (s.beginDecode (Memory.writeAll [] 0 ref) n stream).cons) ∨
    (∃ c : State, c.cons = s.cons ∧ consumerStep c = .next t) := by
  simp only [step, systemStep] at h
  split at h
  · next e rest _ =>
    cases e with
    | write tg v => cases h; exact .inl (hostWrite_cons_host (s.setInbox rest) tg v).1
    | read tg => cases h; exact .inl rfl
    | reset => cases h; exact .inl rfl
    | blockStep => cases h; exact .inl (blockStep_cons_host (s.setInbox rest)).1
    | consumerStep =>
      simp only [handle, consumerTurn] at h
      split at h
      · exact .inr (.inr ⟨s.setInbox rest, rfl, h⟩)
      · cases h; exact .inl rfl
    | assemble => cases h; exact .inl rfl
    | load ref n stream => cases h; exact .inr (.inl ⟨ref, n, stream, rfl⟩)
  · split at h
    · exact .inr (.inr ⟨s, rfl, h⟩)
    · cases h; exact .inl (blockStep_cons_host s).1

/-- A token keeps the consumer inside its OUT. -/
theorem exec_keeps_wf {i : Instr} {s t : State} (h : exec i s = .next t) (hw : s.cons.Wf) :
    t.cons.Wf := by
  obtain ⟨href, hout, hbelow, ho⟩ := hw
  rcases exec_cases h with ⟨why, rfl⟩ | ⟨bytes, rfl, hlen⟩
  · exact ⟨href, hout, hbelow, ho⟩
  · exact ⟨href, Memory.wf_writeAll _ _ _ hout, Memory.below_writeAll _ _ hbelow hlen, hlen⟩

theorem endOfStream_keeps_wf {s : State} (hw : s.cons.Wf) : s.endOfStream.cons.Wf := by
  rw [State.endOfStream]
  split <;> exact hw

theorem consumerStep_keeps_wf {s t : State} (h : consumerStep s = .next t) (hw : s.cons.Wf) :
    t.cons.Wf := by
  rcases consumerStep_cases h with ⟨i, rest, -, he⟩ | rfl | rfl
  · exact exec_keeps_wf he hw
  · exact endOfStream_keeps_wf hw
  · exact hw

theorem step_keeps_consumer_wf {s t : State} (h : step s = .next t) (hw : s.cons.Wf) :
    t.cons.Wf := by
  rcases step_cons_cases h with hc | ⟨ref, n, stream, hc⟩ | ⟨c, hc, hstep⟩
  · rwa [hc]
  · rw [hc]
    exact ⟨Memory.wf_writeAll [] 0 ref rfl, rfl, rfl, Nat.zero_le n⟩
  · exact consumerStep_keeps_wf hstep (by rwa [hc])

/-! ## The block -/

/-- The part of a well-formed state that speaks of the block. -/
structure Block.Legal (b : Block) : Prop where
  memories : b.MemoriesWf
  control : b.ControlWf
  tb : b.work.tb.length = Config.TOKCAP

/-- A well-formed state is a legal block and a well-formed consumer. -/
theorem wf_iff {s : State} : s.Wf ↔ s.block.Legal ∧ s.cons.Wf :=
  ⟨fun ⟨hm, hc, htb, hcons⟩ => ⟨⟨hm, hc, htb⟩, hcons⟩,
    fun ⟨⟨hm, hc, htb⟩, hcons⟩ => ⟨hm, hc, htb, hcons⟩⟩

@[simp] theorem unspecifiedWork_tb_length (s : State) :
    s.unspecifiedWork.tb.length = Config.TOKCAP := by simp [State.unspecifiedWork]

theorem controlWf_of_idle {b : Block} (hp : b.phase = .idle) (hcur : b.cur = 0) : b.ControlWf := by
  simp [Block.ControlWf, hp, hcur]

theorem controlWf_of_done {b : Block} (hp : b.phase = .done) (hn : b.nlen.toNat ≤ Config.NMAX)
    (hcur : b.cur = 0) : b.ControlWf := by
  simp [Block.ControlWf, hp, hn, hcur]

theorem controlWf_of_run {b : Block} (hp : b.phase = .run) (hn : b.nlen.toNat ≤ Config.NMAX)
    (hcur : b.cur.toNat ≤ b.nlen.toNat) : b.ControlWf := by
  simp [Block.ControlWf, hp, hn, hcur]

theorem resetBlock_legal (s : State) : s.resetBlock.block.Legal where
  memories := ⟨rfl, rfl, rfl, rfl, rfl, rfl, rfl, rfl, rfl, rfl, rfl, rfl⟩
  control := controlWf_of_idle rfl rfl
  tb := unspecifiedWork_tb_length s

theorem offsetWork_i_toNat {s : State} (hpos : 0 < s.block.cur.toNat) :
    s.offsetWork.i.toNat = s.block.cur.toNat - 1 := by
  rw [offsetWork_i, offset_pred_toNat hpos]

section
variable {s : State} (h : s.block.Legal)
include h

/-- START with a legal NLEN writes `COST[N]`, an entry of COST, and sets CUR to N. -/
theorem Block.Legal.start (hn : s.n ≤ Config.NMAX) :
    (s.cbInit.setPhase .run).block.Legal := by
  obtain ⟨⟨hrw, hrb, htw, htb, hcw, hcb, hm⟩, -, hwork⟩ := h
  exact ⟨⟨hrw, hrb, htw, htb, Memory.wf_write _ _ _ hcw,
    Memory.below_write _ _ hcb (Nat.lt_succ_of_le hn), hm⟩,
    controlWf_of_run rfl hn (Nat.le_refl _), hwork⟩

/-- An accepted write of an input leaves the block IDLE with CUR 0. -/
theorem Block.Legal.writeNlen (hp : s.block.phase ≠ .run) (v : Word) :
    (s.writeNlen v).block.Legal := by
  obtain ⟨hm, ⟨-, -, hcur⟩, hwork⟩ := h
  exact ⟨hm, controlWf_of_idle rfl (hcur hp), hwork⟩

theorem Block.Legal.writeRef (hp : s.block.phase ≠ .run) {a : Nat} (ha : a < Config.NMAX)
    (b : Byte) : (s.writeRef a b).block.Legal := by
  obtain ⟨⟨hrw, hrb, hm⟩, ⟨-, -, hcur⟩, hwork⟩ := h
  exact ⟨⟨Memory.wf_write _ _ _ hrw, Memory.below_write _ _ hrb ha, hm⟩,
    controlWf_of_idle rfl (hcur hp), hwork⟩

theorem Block.Legal.writeTgt (hp : s.block.phase ≠ .run) {a : Nat} (ha : a < Config.NMAX)
    (b : Byte) : (s.writeTgt a b).block.Legal := by
  obtain ⟨⟨hrw, hrb, htw, htb, hm⟩, ⟨-, -, hcur⟩, hwork⟩ := h
  exact ⟨⟨hrw, hrb, Memory.wf_write _ _ _ htw, Memory.below_write _ _ htb ha, hm⟩,
    controlWf_of_idle rfl (hcur hp), hwork⟩

theorem Block.Legal.hostWrite (tg : Target) (v : Word) : (s.hostWrite tg v).block.Legal := by
  rcases hostWrite_cases s tg v with
    ⟨-, he⟩ | ⟨-, he⟩ | ⟨-, -, -, -, ⟨-, he⟩ | ⟨hn, he⟩⟩ | ⟨hp, -, he | ⟨ha, he | he⟩⟩ <;> rw [he]
  · exact ⟨h.memories, h.control, h.tb⟩
  · exact h
  · exact ⟨h.memories, h.control, h.tb⟩
  · exact h.start hn
  · exact h.writeNlen hp v
  · exact h.writeRef hp ha _
  · exact h.writeTgt hp ha _

/-- An offset step writes entry `CUR - 1`, inside every table, and TOK inside that entry. -/
theorem Block.Legal.offsetStep (hp : s.block.phase = .run) (hpos : 0 < s.block.cur.toNat) :
    s.offsetStep.block.Legal := by
  obtain ⟨⟨hrw, hrb, htw, htb, hcw, hcb, hsw, hsb, hlw, hlb, hkw, hkb⟩, ⟨hrun, -, -⟩, -⟩ := h
  obtain ⟨hn, hcur⟩ := hrun hp
  have hi := offsetWork_i_toNat hpos
  have hlt : s.offsetWork.i.toNat < Config.NMAX := by omega
  have htoken : tokKey s.offsetWork.i.toNat 0 +
      (s.offsetWork.tb.take s.offsetWork.tl.toNat).length ≤ Config.TOKCAP * Config.NMAX := by
    obtain ⟨-, hfits⟩ := offsetWork_fits s
    have hlen := List.length_take_le s.offsetWork.tl.toNat s.offsetWork.tb
    have hcap : Config.TOKCAP = 75 := rfl
    rw [tokKey, hcap]
    omega
  refine ⟨⟨hrw, hrb, htw, htb, Memory.wf_write _ _ _ hcw,
    Memory.below_write _ _ hcb (Nat.lt_succ_of_lt hlt), Memory.wf_write _ _ _ hsw,
    Memory.below_write _ _ hsb hlt, Memory.wf_write _ _ _ hlw, Memory.below_write _ _ hlb hlt,
    Memory.wf_writeAll _ _ _ hkw, Memory.below_writeAll _ _ hkb htoken⟩,
    controlWf_of_run hp hn ?_, unspecifiedWork_tb_length s⟩
  rw [offsetStep_cur hpos]
  exact Nat.le_trans (Nat.sub_le _ _) hcur

theorem Block.Legal.blockStep : s.blockStep.block.Legal := by
  rcases blockStep_cases s with ⟨-, he⟩ | ⟨hp, h0, he⟩ | ⟨hp, hpos, he⟩ <;> rw [he]
  · exact h
  · obtain ⟨hm, ⟨hrun, -, -⟩, hwork⟩ := h
    exact ⟨hm, controlWf_of_done rfl (hrun hp).1 (BitVec.eq_of_toNat_eq h0), hwork⟩
  · exact h.offsetStep hp hpos

end

theorem step_keeps_block_legal {s t : State} (h : step s = .next t) (hs : s.block.Legal) :
    t.block.Legal := by
  rcases step_block_cases h with hb | ⟨tg, v, -, hb⟩ | ⟨-, hb⟩ | ⟨-, hb⟩ <;> rw [hb]
  · exact hs
  · exact hs.hostWrite tg v
  · exact resetBlock_legal s
  · exact hs.blockStep

/-- Settles O36: the block and the consumer apart. -/
theorem wellFormednessIsKept : Obligations.WellFormednessIsKept := by
  intro s t hs hstep
  obtain ⟨hblock, hcons⟩ := wf_iff.1 hs
  exact wf_iff.2 ⟨step_keeps_block_legal hstep hblock, step_keeps_consumer_wf hstep hcons⟩

/-- Settles O37: the reset state is a literal, evaluated. -/
theorem resetIsWellFormed : Obligations.ResetIsWellFormed := by
  unfold Obligations.ResetIsWellFormed
  decide

end Sys2Proof.Machine
end

section
/-! PROOFS. What holds of the tables in RUN and DONE is kept by every step (10_state.md R16, R31,
41_cost_builder.md R128 to R136). -/

namespace Sys2Proof.Machine

open Sys2Proof

/-! ## A final entry stays final where the tables above it are kept -/

theorem State.SameEntry.tokenInstr {s t : State} {i : Nat} (h : t.SameEntry s i) :
    t.tokenInstr i = s.tokenInstr i := by
  rw [State.tokenInstr, State.tokenInstr, h.token]

/-- What makes an entry final and correct are the inputs, the entry itself and the costs above
it. -/
theorem State.EntryOk.of_same {s t : State} {i : Nat} (h : s.EntryOk i) (hin : t.SameInputs s)
    (href : t.block.ref = s.block.ref) (he : t.SameEntry s i) (hw : t.EntryWritten i)
    (hc : t.SameCostsFrom s (i + 1)) : t.EntryOk i := by
  obtain ⟨-, hforward, hcost, hbounds, hshape, hwindow, hrebuilds⟩ := h
  obtain ⟨hlt, hle⟩ := hforward
  have htn := hin.n
  refine ⟨hw, ?_, ?_, ?_, ?_, ?_, ?_⟩
  · rw [State.Forward, he.trans, htn]
    exact ⟨hlt, hle⟩
  · rw [State.CostEquation, he.cost, he.toklen, he.trans, hc _ hlt (by omega)]
    exact hcost
  · rw [State.CostBounds, he.cost, hc _ (Nat.le_refl _) (by omega), htn]
    exact hbounds
  · rw [State.TokenShape, he.toklen, he.token, he.tokenInstr]
    exact hshape
  · intro ins len addr hins
    rw [he.trans, htn]
    exact hwindow ins len addr (he.tokenInstr ▸ hins)
  · obtain ⟨ins, hins, hexec⟩ := hrebuilds
    refine ⟨ins, he.tokenInstr.trans hins, fun c hr hcn ho => ?_⟩
    obtain ⟨c', hstep, hcursor, hverdict, hout⟩ :=
      hexec c (hr.trans href) (hcn.trans htn) ho
    refine ⟨c', hstep, by rw [he.trans, hcursor], hverdict, fun a => ?_⟩
    rw [hout a, he.trans]
    split
    · rw [hin.tgtByte a (by omega)]
    · rfl

/-! ## Steps that leave the memories and NLEN -/

/-- The same NLEN, inputs and tables; control state, flags, working registers and the counter of
free values may differ. -/
structure State.SameMemories (s t : State) : Prop where
  nlen : s.block.nlen = t.block.nlen
  ref : s.block.ref = t.block.ref
  tgt : s.block.tgt = t.block.tgt
  cost : s.block.cost = t.block.cost
  trans : s.block.trans = t.block.trans
  toklen : s.block.toklen = t.block.toklen
  tok : s.block.tok = t.block.tok

theorem State.SameMemories.of_block {s t : State} (h : s.block = t.block) : s.SameMemories t := by
  constructor <;> rw [h]

section
variable {s t : State} (h : t.SameMemories s)
include h

theorem State.SameMemories.n : t.n = s.n := by rw [State.n, State.n, h.nlen]

theorem State.SameMemories.inputsWritten (hw : t.InputsWritten) : s.InputsWritten := by
  intro a ha
  rw [← h.ref, ← h.tgt]
  exact hw a (h.n ▸ ha)

theorem State.SameMemories.sameInputs (hw : t.InputsWritten) : t.SameInputs s :=
  .of_reads hw h.n fun a _ => by rw [h.ref, h.tgt]; exact ⟨rfl, rfl⟩

/-- A written cost reads the same whatever the counter of free values. -/
theorem State.SameMemories.costEntry {a : Nat} (hw : (Memory.read s.block.cost a).isSome) :
    t.costEntry a = s.costEntry a := by
  obtain ⟨v, hv⟩ := Option.isSome_iff_exists.1 hw
  rw [costEntry_of_read hv, costEntry_of_read (h.cost ▸ hv)]

/-- A written entry reads the same whatever the counter of free values. -/
theorem State.SameMemories.entry {i : Nat} (hw : s.EntryWritten i) :
    t.SameEntry s i ∧ t.EntryWritten i := by
  obtain ⟨hcost, htrans, htoklen, htok⟩ := hw
  have hlen : t.toklenEntry i = s.toklenEntry i := by
    obtain ⟨l, hl⟩ := Option.isSome_iff_exists.1 htoklen
    simp [State.toklenEntry, h.toklen, hl]
  refine ⟨⟨h.costEntry hcost, ?_, hlen, ?_⟩, h.cost ▸ hcost, h.trans ▸ htrans,
    h.toklen ▸ htoklen, fun b hb => ?_⟩
  · obtain ⟨v, hv⟩ := Option.isSome_iff_exists.1 htrans
    simp [State.transEntry, h.trans, hv]
  · rw [State.token, State.token, hlen]
    refine List.map_congr_left fun b hb => ?_
    obtain ⟨x, hx⟩ := Option.isSome_iff_exists.1 (htok b (List.mem_range.1 hb))
    simp [State.tokByte, h.tok, hx]
  · rw [h.tok]
    exact htok b (hlen ▸ hb)

/-- A step that leaves the memories, NLEN and CUR, and PHASE but for the completion of a run, keeps
what holds of the tables. -/
theorem State.SameMemories.tablesInv (hs : s.TablesInv) (hcur : t.block.cur = s.block.cur)
    (hphase : t.block.phase = s.block.phase ∨
      (s.block.phase = .run ∧ s.block.cur.toNat = 0)) : t.TablesInv := by
  intro hactive
  have hsactive : s.block.phase ≠ .idle := by
    rcases hphase with hp | ⟨hp, -⟩
    · exact hp ▸ hactive
    · simp [hp]
  obtain ⟨hn, hle, hdone, hend, hentries⟩ := hs hsactive
  rw [h.n, hcur, h.cost]
  refine ⟨hn, hle, fun hd => ?_, hend, fun hw i hci hi => ?_⟩
  · rcases hphase with hp | ⟨-, h0⟩
    · exact hdone (hp ▸ hd)
    · exact h0
  · have hok := hentries (h.inputsWritten hw)
    obtain ⟨hsame, hwritten⟩ := h.entry (hok i hci hi).written
    refine (hok i hci hi).of_same (h.sameInputs hw) h.ref hsame hwritten fun o hio ho => ?_
    rcases Nat.lt_or_eq_of_le (h.n ▸ ho) with hlt | rfl
    · exact h.costEntry (hok o (by omega) hlt).written.1
    · exact h.costEntry (hend ▸ rfl)

end

/-! ## START and the offset step -/

theorem tablesInv_of_idle {s : State} (h : s.block.phase = .idle) : s.TablesInv :=
  fun hactive => absurd h hactive

/-- START leaves no entry below N to speak of, and writes `COST[N]` (R110, R151). -/
theorem tablesInv_start {s : State} (hn : s.n ≤ Config.NMAX) :
    (s.cbInit.setPhase .run).TablesInv := by
  refine fun _ => ⟨hn, Nat.le_refl _, fun hd => ?_, ?_, fun _ i hci hi => ?_⟩
  · cases hd
  · exact Memory.read_write_same _ _ _
  · exact absurd hi (Nat.not_lt.2 hci)

section
variable {s : State} (hs : s.TablesInv) (hp : s.block.phase = .run)
include hs hp

/-- In RUN over written inputs the tables are computed from CUR on. -/
theorem State.TablesInv.computedFrom (hw : s.InputsWritten) {k : Nat}
    (hk : s.block.cur.toNat = k) : s.ComputedFrom k := by
  obtain ⟨hn, hle, -, hend, hentries⟩ := hs (by simp [hp])
  rw [hk] at hle hentries
  refine ⟨hp, hk, hn, hle, hw, hend, fun i hki hi => (hentries hw i hki hi).written,
    fun i hki hi => ?_, fun o hko ho => ?_⟩
  · obtain ⟨-, -, hmax, -⟩ := (hentries hw i hki hi).tokenShape
    exact hmax
  · rcases Nat.lt_or_eq_of_le ho with hlt | rfl
    · obtain ⟨-, -, hmax⟩ := (hentries hw o hko hlt).costBounds
      exact hmax
    · rw [costEntry_of_read hend]
      exact Nat.zero_le _

/-- The entry an offset step commits is final, and the entries above it stay so. -/
theorem State.TablesInv.offsetStep_entryOk (hw : s.InputsWritten) {k i : Nat}
    (hk : s.block.cur.toNat = k + 1) (hki : k ≤ i) (hi : i < s.n) : s.offsetStep.EntryOk i := by
  have hcomputed := hs.computedFrom hp hw hk
  rcases Nat.lt_or_eq_of_le hki with hlt | rfl
  · obtain ⟨-, -, -, -, hentries⟩ := hs (by simp [hp])
    obtain ⟨hsame, hwritten⟩ := hcomputed.offsetStep_keeps hlt hi
    have hinputs : s.offsetStep.SameInputs s :=
      ⟨rfl, fun _ => offsetStep_refByte hw, fun _ => offsetStep_tgtByte hw⟩
    exact (hentries hw i (by omega) hi).of_same hinputs rfl hsame hwritten
      fun o hio => hcomputed.offsetStep_costEntry (by omega)
  · have hentry := hcomputed.offsetStep_commits
    rw [← hcomputed.offsetStep_bestCandidate (Nat.le_refl k) hi] at hentry
    exact hentry.entryOk hcomputed.legal hi hw
      (hcomputed.offsetStep.cost_le (k + 1) (Nat.le_succ k) hi)

theorem State.TablesInv.offsetStep (hpos : 0 < s.block.cur.toNat) : s.offsetStep.TablesInv := by
  obtain ⟨hn, hle, -, hend, -⟩ := hs (by simp [hp])
  have hi := offsetWork_i_toNat hpos
  intro _
  rw [offsetStep_cur hpos, offsetStep_n]
  refine ⟨hn, by omega, fun hd => ?_, ?_, fun hw i hci hilt => ?_⟩
  · exact absurd (hp.symm.trans hd) (by decide)
  · rw [State.offsetStep, (cbCommit_reads s s.offsetWork s.n).1, if_neg (by omega), hend]
  · exact hs.offsetStep_entryOk hp hw (Nat.succ_pred_eq_of_pos hpos).symm hci hilt

end

/-! ## Every step -/

section
variable {s : State} (hs : s.TablesInv)
include hs

theorem State.TablesInv.blockStep : s.blockStep.TablesInv := by
  rcases blockStep_cases s with ⟨-, he⟩ | ⟨hp, h0, he⟩ | ⟨hp, hpos, he⟩ <;> rw [he]
  · exact hs
  · have hsame : (s.setPhase .done).SameMemories s := ⟨rfl, rfl, rfl, rfl, rfl, rfl, rfl⟩
    exact hsame.tablesInv hs rfl (.inr ⟨hp, h0⟩)
  · exact hs.offsetStep hp hpos

theorem State.TablesInv.raise (f : FaultCause) : (s.raise f).TablesInv := by
  have hsame : (s.raise f).SameMemories s := by
    cases f <;> exact ⟨rfl, rfl, rfl, rfl, rfl, rfl, rfl⟩
  exact hsame.tablesInv hs (by cases f <;> rfl) (.inl (by cases f <;> rfl))

theorem State.TablesInv.hostWrite (tg : Target) (v : Word) : (s.hostWrite tg v).TablesInv := by
  rcases hostWrite_cases s tg v with
    ⟨-, he⟩ | ⟨-, he⟩ | ⟨-, -, -, -, ⟨-, he⟩ | ⟨hn, he⟩⟩ | ⟨-, -, he | ⟨-, he | he⟩⟩ <;> rw [he]
  · exact hs.raise _
  · exact hs
  · exact hs.raise _
  · exact tablesInv_start hn
  all_goals exact tablesInv_of_idle rfl

end

/-- A state with the same block keeps what holds of the tables, whatever else it holds. -/
theorem State.TablesInv.of_block {s t : State} (hs : s.TablesInv) (h : t.block = s.block) :
    t.TablesInv :=
  (State.SameMemories.of_block h).tablesInv hs (by rw [h]) (.inl (by rw [h]))

/-- Settles O34: the invariant speaks of the block, and each thing a step can do to the block keeps
it. -/
theorem tablesInvariantIsKept : Obligations.TablesInvariantIsKept := by
  intro s t hs hstep
  rcases step_block_cases hstep with hb | ⟨tg, v, -, hb⟩ | ⟨-, hb⟩ | ⟨-, hb⟩
  · exact hs.of_block hb
  · exact (hs.hostWrite tg v).of_block hb
  · exact tablesInv_of_idle (hb ▸ rfl)
  · exact hs.blockStep.of_block hb

/-- Settles O35: no table is claimed in IDLE. -/
theorem tablesInvariantAtReset : Obligations.TablesInvariantAtReset := tablesInv_of_idle rfl

end Sys2Proof.Machine
end

section
/-! PROOFS. One offset step and a whole run of them (41_cost_builder.md R123, R124, R127, R132,
10_state.md R14, 43_control_and_host.md R154). -/

namespace Sys2Proof.Machine

open Sys2Proof

/-! ## What an offset step commits and what it leaves -/

theorem blockStep_of_cur_pos {s : State} (hp : s.block.phase = .run)
    (hpos : 0 < s.block.cur.toNat) : s.blockStep = s.offsetStep := by
  rcases blockStep_cases s with ⟨hn, -⟩ | ⟨-, h0, -⟩ | ⟨-, -, he⟩
  · exact absurd hp hn
  · omega
  · exact he

/-- Settles O22: the registers at the commit hold the fold of `betterOf` over the candidates. -/
theorem offsetStepCommitsTheFirstMinimum : Obligations.OffsetStepCommitsTheFirstMinimum := by
  intro s hp hn hpos hcur hcosts i t
  have hregs := offsetWork_holds s hn hpos hcur hcosts
  obtain ⟨hcost, htrans, -, htoken, -⟩ := cbCommit_entry s s.offsetWork (offsetWork_fits s).1
  rw [hregs.atOffset] at hcost htrans htoken
  have ht : t = s.offsetStep := blockStep_of_cur_pos hp hpos
  rw [ht]
  exact ⟨s.bestCandidate i, bestCandidate_firstMinimum s i, (congrArg _ hcost).trans hregs.cost,
    (congrArg _ htrans).trans hregs.reach, htoken.trans hregs.bytes⟩

/-- Settles O23: the reads of the tables after the commit. -/
theorem offsetStepWritesOneEntry : Obligations.OffsetStepWritesOneEntry := by
  intro s hp hpos i t
  have ht : t = s.cbCommit s.offsetWork := blockStep_of_cur_pos hp hpos
  have hi : s.offsetWork.i.toNat = i := offsetWork_i_toNat hpos
  obtain ⟨htl, -⟩ := offsetWork_fits s
  obtain ⟨-, -, htoklen, -, hwritten⟩ := cbCommit_entry s s.offsetWork htl
  rw [ht]
  rw [hi] at htoklen hwritten
  refine ⟨hi, hwritten, hp, rfl, rfl, rfl, rfl, rfl, rfl, rfl, fun a ha => ?_, fun a ha => ?_⟩
  · obtain ⟨hcost, htrans, hlen, -⟩ := cbCommit_reads s s.offsetWork a
    rw [hi, if_neg (Ne.symm ha)] at hcost htrans hlen
    exact ⟨hcost, htrans, hlen⟩
  · rw [htoklen] at ha
    obtain ⟨-, -, -, htok⟩ := cbCommit_reads s s.offsetWork a
    have hlen : (s.offsetWork.tb.take s.offsetWork.tl.toNat).length = s.offsetWork.tl.toNat :=
      List.length_take_of_le htl
    rw [htok, hi, hlen, if_neg]
    rw [tokKey, tokKey] at ha
    rw [tokKey]
    omega

/-! ## The working registers at the start of an offset step -/

/-- Two register files that agree on the running minimum, and on BESTJ once BESTM is set. -/
structure Work.Agrees (v w : Work) : Prop where
  i : v.i = w.i
  c : v.c = w.c
  t : v.t = w.t
  tl : v.tl = w.tl
  bytes : v.tb.take v.tl.toNat = w.tb.take w.tl.toNat
  bestM : v.bestM = w.bestM
  bestJ : v.bestM ≠ 0 → v.bestJ = w.bestJ

/-- The valid bytes of TB after a token is loaded, whatever its length, come from the token. -/
theorem putToken_valid_eq_take (w : Work) (t : List Byte) :
    (w.putToken t).tb.take (w.putToken t).tl.toNat = t.take (BitVec.ofNat 7 t.length).toNat := by
  rw [putToken_tb, putToken_tl, List.take_append_of_le_length]
  rw [BitVec.toNat_ofNat]
  exact Nat.mod_le _ _

section
variable {v w : Work} (h : v.Agrees w)
include h

/-- An adoption test reads the running minimum alone. -/
theorem Work.Agrees.adopt (total : Word) (len : Nat) (tok : List Byte) :
    (v.adopt total len tok).Agrees (w.adopt total len tok) := by
  by_cases hlt : total < v.c
  · rw [adopt_of_lt hlt, adopt_of_lt (h.c ▸ hlt)]
    exact ⟨h.i, rfl, by rw [h.i], rfl,
      (putToken_valid_eq_take _ tok).trans (putToken_valid_eq_take _ tok).symm, h.bestM, h.bestJ⟩
  · rw [adopt_of_not_lt hlt, adopt_of_not_lt (h.c ▸ hlt)]
    exact ⟨h.i, h.c, h.t, h.tl, h.bytes, h.bestM, h.bestJ⟩

theorem Work.Agrees.scanLength (s : State) (hj : v.j = w.j) (k : Nat) :
    (s.scanLength v k).Agrees (s.scanLength w k) := by
  simp only [State.scanLength, State.cbTryApprox, h.i, hj]
  refine Work.Agrees.adopt ?_ _ _ _
  exact ⟨rfl, h.c, h.t, h.tl, h.bytes, h.bestM, h.bestJ⟩

theorem Work.Agrees.msBest (hj : v.j = w.j) (hm : v.m = w.m) : v.msBest.Agrees w.msBest := by
  rw [Work.msBest, Work.msBest, h.bestM, hm]
  split
  · exact ⟨h.i, h.c, h.t, h.tl, h.bytes, rfl, fun _ => by rw [hj]⟩
  · exact h

/-- The registers an address begins with are set from the offset and the address. -/
theorem Work.Agrees.atAddress (s : State) (j : Nat) :
    (s.atAddress v j).Agrees (s.atAddress w j) ∧ (s.atAddress v j).j = (s.atAddress w j).j ∧
      (s.atAddress v j).m = (s.atAddress w j).m ∧
      (s.atAddress v j).lim = (s.atAddress w j).lim := by
  simp only [State.atAddress, msBest_j, msBest_m, msBest_lim, State.setRun, h.i]
  refine ⟨Work.Agrees.msBest ?_ rfl rfl, trivial, trivial, trivial⟩
  exact ⟨rfl, h.c, h.t, h.tl, h.bytes, h.bestM, h.bestJ⟩

theorem Work.Agrees.scanAddress (s : State) (j : Nat) :
    (s.scanAddress v j).Agrees (s.scanAddress w j) := by
  obtain ⟨hat, hj, hm, hlim⟩ := h.atAddress s j
  rw [scanAddress_eq, scanAddress_eq, hm, hlim]
  split
  · exact hat
  · exact (List.foldl_rel (r := fun x y : Work => x.Agrees y ∧ x.j = y.j) ⟨hat, hj⟩
      fun k _ x y ⟨hxy, hxj⟩ => ⟨hxy.scanLength s hxj k, by simp [hxj]⟩).1

/-- BESTJ is read only by an exact candidate, so only where BESTM is positive (R119). -/
theorem Work.Agrees.cbTryExact (s : State) : (s.cbTryExact v).Agrees (s.cbTryExact w) := by
  rw [State.cbTryExact, State.cbTryExact, h.bestM]
  by_cases hm : v.bestM = 0
  · rw [← h.bestM, hm]
    exact h
  · refine (List.foldl_rel (r := fun x y : Work => x.Agrees y ∧ x.bestJ = y.bestJ) ⟨h, h.bestJ hm⟩
      fun len _ x y ⟨hxy, hxj⟩ => ⟨?_, by simp [State.tryExactLength, hxj]⟩).1
    rw [State.tryExactLength, State.tryExactLength, hxy.i, hxj]
    exact hxy.adopt _ _ _

/-- A commit reads the running minimum alone (R123). -/
theorem Work.Agrees.cbCommit (s : State) : s.cbCommit v = s.cbCommit w := by
  rw [State.cbCommit, State.cbCommit, h.i, h.c, h.t, h.bytes, h.tl]

end

/-- The seed sets the running minimum from the offset, whatever the registers held (R115). -/
theorem msScan_cbSeed_agrees (s : State) {v w : Work} (hi : v.i = w.i) :
    (s.msScan (s.cbSeed v)).Agrees (s.msScan (s.cbSeed w)) := by
  refine List.foldl_rel (r := Work.Agrees) ?_ fun j _ _ _ hxy => hxy.scanAddress s j
  simp only [State.cbSeed, hi]
  exact ⟨hi, rfl, rfl, rfl, (putToken_valid_eq_take v _).trans (putToken_valid_eq_take w _).symm,
    rfl, fun hne => absurd rfl hne⟩

/-- The running minimum of an offset step depends on the tables and CUR alone (R14). -/
theorem State.SameTables.offsetWork_agrees {s t : State} (h : s.SameTables t)
    (hcur : s.block.cur = t.block.cur) : s.offsetWork.Agrees t.offsetWork := by
  have hseed : s.cbSeed = t.cbSeed := by
    funext w; simp only [State.cbSeed, h.teLit1, h.costEntry]
  have hscan : s.msScan = t.msScan := by
    funext w; simp only [State.msScan, h.n, h.scanAddress]
  have hexact : s.cbTryExact = t.cbTryExact := by
    funext w; simp only [State.cbTryExact, h.tryExactLength]
  rw [State.offsetWork, State.offsetWork, hseed, hscan, hexact]
  exact (msScan_cbSeed_agrees t (by rw [hcur])).cbTryExact t

/-- The state with other working registers. -/
def State.withWork (s : State) (w : Work) : State :=
  { s with block := { s.block with work := w } }

theorem withWork_sameTables (s : State) (w : Work) : (s.withWork w).SameTables s :=
  ⟨rfl, rfl, rfl, rfl, rfl, rfl, rfl, rfl⟩

theorem offsetStep_withWork (s : State) (w : Work) : (s.withWork w).offsetStep = s.offsetStep :=
  calc (s.withWork w).cbCommit (s.withWork w).offsetWork
    _ = s.cbCommit (s.withWork w).offsetWork := rfl
    _ = s.cbCommit s.offsetWork := ((withWork_sameTables s w).offsetWork_agrees rfl).cbCommit s

@[simp] theorem hostWrite_work (s : State) (tg : Target) (v : Word) :
    (s.hostWrite tg v).block.work = s.block.work := by
  rcases hostWrite_cases s tg v with
    ⟨-, he⟩ | ⟨-, he⟩ | ⟨-, -, -, -, ⟨-, he⟩ | ⟨-, he⟩⟩ | ⟨-, -, he | ⟨-, he | he⟩⟩ <;>
  rw [he] <;> rfl

/-- Settles O24: the commit reads the running minimum alone, a host read no working register. -/
theorem offsetStepIgnoresOldWorkingRegisters :
    Obligations.OffsetStepIgnoresOldWorkingRegisters :=
  fun s w => ⟨offsetStep_withWork s w, fun _ => rfl, hostWrite_work s⟩

/-! ## A whole run -/

/-- While CUR is positive the block steps of a run are offset steps, CUR counting down. -/
theorem blockSteps_run {k : Nat} {s : State} (hp : s.block.phase = .run)
    (hk : k ≤ s.block.cur.toNat) :
    (State.blockSteps k s).block.phase = .run ∧
      (State.blockSteps k s).block.cur.toNat + k = s.block.cur.toNat := by
  induction k generalizing s with
  | zero => exact ⟨hp, rfl⟩
  | succ k ih =>
    have hpos : 0 < s.block.cur.toNat := by omega
    have hcur := offsetStep_cur hpos
    rw [blockSteps_succ, blockStep_of_cur_pos hp hpos]
    obtain ⟨hphase, hdown⟩ := ih (s := s.offsetStep) hp (by omega)
    exact ⟨hphase, by omega⟩

theorem blockSteps_succ_last (k : Nat) (s : State) :
    State.blockSteps (k + 1) s = (State.blockSteps k s).blockStep := by
  induction k generalizing s with
  | zero => rfl
  | succ k ih => rw [blockSteps_succ, ih, blockSteps_succ]

theorem start_of_legal {s : State} (hn : s.n ≤ Config.NMAX) :
    s.start = s.cbInit.setPhase .run :=
  if_neg (Nat.not_lt.2 hn)

/-- Settles O25: START sets CUR to N, and at 0 the next block step completes the run. -/
theorem runIsExactlyNOffsetSteps : Obligations.RunIsExactlyNOffsetSteps := by
  intro s _ hn
  have hcur : s.start.block.cur.toNat = s.n := by rw [start_of_legal hn]; rfl
  have hrun : s.start.block.phase = .run := by rw [start_of_legal hn]; rfl
  have hsteps : ∀ k, k ≤ s.n → (s.start.blockSteps k).block.phase = .run ∧
      (s.start.blockSteps k).block.cur.toNat + k = s.n := fun k hk => by
    rw [← hcur]
    exact blockSteps_run hrun (by omega)
  obtain ⟨hphase, hdown⟩ := hsteps s.n (Nat.le_refl _)
  have hlast : s.finished = (s.start.blockSteps s.n).setPhase .done := by
    rw [State.finished, blockSteps_succ_last, blockStep_of_cur_zero hphase (by omega)]
  rw [hlast]
  exact ⟨hsteps, rfl, by rw [State.setPhase_block_cur]; omega⟩

end Sys2Proof.Machine
end

section
/-! PROOFS. What one step does with each pending event, and with none (30_encoding.md R80, R85,
43_control_and_host.md R151, R157 to R167, 70_reset_and_hazards.md R185). -/

namespace Sys2Proof.Machine

open Sys2Proof

/-! ## Whose turn a step is -/

/-- A pending event is handled with the rest of the inbox behind it. -/
theorem step_of_event {s : State} {e : Event} {more : List Event} (h : s.host.inbox = e :: more) :
    step s = handle e (s.setInbox more) := by
  simp only [step, systemStep, h]

theorem step_of_decoding {s : State} (hin : s.host.inbox = []) (hv : s.cons.verdict = .decoding) :
    step s = consumerStep s := by
  simp only [step, systemStep, hin, if_pos hv]

/-- At its own event a consumer that is decoding takes its step. -/
theorem step_of_consumerStep_decoding {s : State} {more : List Event}
    (h : s.host.inbox = .consumerStep :: more) (hv : s.cons.verdict = .decoding) :
    step s = consumerStep (s.setInbox more) :=
  (step_of_event h).trans (if_pos hv)

theorem step_of_consumerStep_waiting {s : State} {more : List Event}
    (h : s.host.inbox = .consumerStep :: more) (hv : s.cons.verdict ≠ .decoding) :
    step s = .next (s.setInbox more) :=
  (step_of_event h).trans (if_neg hv)

/-! ## The consumer's step -/

section
variable {s : State}

theorem consumerStep_of_decode {i : Instr} {rest : List Byte}
    (h : decode s.cons.stream = .ok (i, rest)) : consumerStep s = exec i (s.setStream rest) := by
  simp only [consumerStep, h]

theorem consumerStep_of_endOfStream (h : decode s.cons.stream = .error .endOfStream) :
    consumerStep s = .next s.endOfStream := by
  simp only [consumerStep, h]

theorem consumerStep_of_truncated (h : decode s.cons.stream = .error .truncated) :
    consumerStep s = .next (s.reject .truncated) := by
  simp only [consumerStep, h]

/-- At the end of its stream a consumer with `o = N` succeeds (R76, R85). -/
theorem consumerStep_success (h : decode s.cons.stream = .error .endOfStream)
    (ho : s.cons.o = s.cons.n) : consumerStep s = .next (s.setVerdict .success) := by
  rw [consumerStep_of_endOfStream h, State.endOfStream, if_pos ho]

theorem consumerStep_underrun (h : decode s.cons.stream = .error .endOfStream)
    (ho : s.cons.o ≠ s.cons.n) : consumerStep s = .next (s.reject .underrun) := by
  rw [consumerStep_of_endOfStream h, State.endOfStream, if_neg ho]

end

/-- Settles O7: both turns of a decoding consumer are its step, which runs the decoded token. -/
theorem stepRunsTheDecodedToken : Obligations.StepRunsTheDecodedToken :=
  fun _ _ _ hv hd => ⟨fun hin => step_of_decode hin hv hd,
    fun _ hin => (step_of_consumerStep_decoding hin hv).trans (consumerStep_of_decode hd)⟩

/-- Settles O14: both ends of a stream are verdicts, which leave OUT and the block. -/
theorem endOfStreamVerdict : Obligations.EndOfStreamVerdict := by
  intro s hin hv
  rw [step_of_decoding hin hv]
  refine ⟨fun hd => ?_, fun hd => ⟨_, consumerStep_of_truncated hd, rfl, rfl, rfl⟩⟩
  by_cases ho : s.cons.o = s.cons.n
  · exact ⟨_, consumerStep_success hd ho, fun _ => rfl, fun hne => absurd ho hne, rfl, rfl⟩
  · exact ⟨_, consumerStep_underrun hd ho, fun he => absurd he ho, fun _ => rfl, rfl, rfl⟩

/-- Settles O58: at its event a consumer waits or takes its step, by its verdict. -/
theorem consumerTurnAtItsEvent : Obligations.ConsumerTurnAtItsEvent :=
  fun _ _ hin => ⟨step_of_consumerStep_waiting hin,
    fun hv hd ho => (step_of_consumerStep_decoding hin hv).trans (consumerStep_success hd ho),
    fun hv hd ho => (step_of_consumerStep_decoding hin hv).trans (consumerStep_underrun hd ho),
    fun hv hd => (step_of_consumerStep_decoding hin hv).trans (consumerStep_of_truncated hd)⟩

/-! ## Every step answers a next state -/

/-- A token rejects or writes, and either answers a next state. -/
theorem exec_next (i : Instr) (s : State) : ∃ t, exec i s = .next t := by
  cases i with
  | lit1 x => simp only [exec, execLit1]; split <;> exact ⟨_, rfl⟩
  | lit2 x0 x1 => exact ⟨_, rfl⟩
  | exactMatch len addr => simp only [exec, execExactMatch]; split <;> exact ⟨_, rfl⟩
  | approxMatch len addr bm ps =>
    simp only [exec, execApproxMatch]
    split
    · exact ⟨_, rfl⟩
    · split
      · exact ⟨_, rfl⟩
      · split <;> exact ⟨_, rfl⟩

theorem consumerStep_next (s : State) : ∃ t, consumerStep s = .next t := by
  cases hd : decode s.cons.stream with
  | ok p => exact consumerStep_of_decode hd ▸ exec_next p.1 _
  | error e =>
    cases e with
    | endOfStream => exact ⟨_, consumerStep_of_endOfStream hd⟩
    | truncated => exact ⟨_, consumerStep_of_truncated hd⟩

theorem step_next (s : State) : ∃ t, step s = .next t := by
  cases hin : s.host.inbox with
  | nil =>
    by_cases hv : s.cons.verdict = .decoding
    · exact step_of_decoding hin hv ▸ consumerStep_next s
    · exact ⟨_, step_of_no_event hin hv⟩
  | cons e more =>
    cases e with
    | consumerStep =>
      by_cases hv : s.cons.verdict = .decoding
      · exact step_of_consumerStep_decoding hin hv ▸ consumerStep_next _
      · exact ⟨_, step_of_consumerStep_waiting hin hv⟩
    | _ => exact ⟨_, step_of_event hin⟩

/-- Settles O55: a step is an event, the block's turn or the consumer's, whose token answers a next
state. -/
theorem everyStepAnswersANextState : Obligations.EveryStepAnswersANextState :=
  ⟨step_next, exec_next⟩

/-! ## The block's turn -/

theorem blockStep_of_not_run {s : State} (hp : s.block.phase ≠ .run) : s.blockStep = s := by
  rcases blockStep_cases s with ⟨-, he⟩ | ⟨hr, -⟩ | ⟨hr, -⟩
  · exact he
  all_goals exact absurd hr hp

/-- Settles O51: the step is the block's, which has none outside RUN. -/
theorem blockWaitsOutsideRun : Obligations.BlockWaitsOutsideRun := by
  intro s hp hin hv
  rw [step_of_no_event hin hv, blockStep_of_not_run hp]

/-- Settles O57: whose turn it is, then the block's step by PHASE and CUR. -/
theorem stepTakesTheBlockStep : Obligations.StepTakesTheBlockStep :=
  fun _ => ⟨step_of_no_event, fun _ hin => step_of_event hin, blockStep_of_cur_pos,
    blockStep_of_cur_zero, blockStep_of_not_run⟩

/-! ## The host's writes -/

/-- Settles O56: the step handles the event, and a host write leaves the consumer and the host. -/
theorem stepPerformsTheHostWrite : Obligations.StepPerformsTheHostWrite := by
  intro s tg v more hin
  obtain ⟨hcons, hhost, -⟩ := hostWrite_cons_host (s.setInbox more) tg v
  exact ⟨_, step_of_event hin, rfl, hcons, hhost⟩

/-- Settles O38: the write is START, and NLEN is legal. -/
theorem startBeginsARun : Obligations.StartBeginsARun := by
  intro s b v hp hn hv t
  have ht : t = s.cbInit.setPhase .run :=
    (hostWrite_ctrl_eq_start hp b hv).trans (start_of_legal hn)
  rw [ht]
  exact ⟨rfl, rfl, Memory.read_write_same _ _ _,
    fun a ha => Memory.read_write_other _ _ (Ne.symm ha), rfl, rfl, rfl, rfl, rfl, rfl, rfl, rfl,
    rfl, rfl⟩

section
variable {s : State} (hp : s.block.phase ≠ .run)
include hp

theorem hostWrite_ref (a b : Nat) (v : Word) : s.hostWrite ⟨spaceRef, a, b⟩ v =
    if a < Config.NMAX then s.writeRef a (v.setWidth 8) else s :=
  if_neg hp

theorem hostWrite_tgt (a b : Nat) (v : Word) : s.hostWrite ⟨spaceTgt, a, b⟩ v =
    if a < Config.NMAX then s.writeTgt a (v.setWidth 8) else s :=
  if_neg hp

theorem hostWrite_nlen (b : Nat) (v : Word) : s.hostWrite ⟨spaceCsr, 2, b⟩ v = s.writeNlen v :=
  if_neg hp

end

/-- Settles O41: one write each of REF, TGT and NLEN. -/
theorem inputWritesArePerformed : Obligations.InputWritesArePerformed := by
  intro s a b v hp
  rw [hostWrite_ref hp, hostWrite_tgt hp, hostWrite_nlen hp]
  refine ⟨fun ha => ?_, fun ha => ?_, fun ha => ?_, rfl⟩
  · rw [if_pos ha]
    exact ⟨Memory.read_write_same _ _ _, rfl,
      fun c hc => Memory.read_write_other _ _ (Ne.symm hc), rfl⟩
  · rw [if_pos ha]
    exact ⟨Memory.read_write_same _ _ _, rfl,
      fun c hc => Memory.read_write_other _ _ (Ne.symm hc), rfl⟩
  · rw [if_neg (Nat.not_lt.2 ha), if_neg (Nat.not_lt.2 ha)]
    exact ⟨rfl, rfl⟩

/-! ## The host's reads -/

section
variable (s : State) (a b : Nat)

/-- One equation per memory space (R161). -/
theorem hostReadValue_ref : s.hostReadValue ⟨spaceRef, a, b⟩ =
    if s.block.phase ≠ .run ∧ a < Config.NMAX then (s.refByte a).setWidth 32
    else (s.free 8 spaceRef a).setWidth 32 := rfl

theorem hostReadValue_tgt : s.hostReadValue ⟨spaceTgt, a, b⟩ =
    if s.block.phase ≠ .run ∧ a < Config.NMAX then (s.tgtByte a).setWidth 32
    else (s.free 8 spaceTgt a).setWidth 32 := rfl

theorem hostReadValue_cost : s.hostReadValue ⟨spaceCost, a, b⟩ =
    if s.block.phase = .done ∧ a ≤ s.n then s.costEntry a else s.free 32 spaceCost a := rfl

theorem hostReadValue_trans : s.hostReadValue ⟨spaceTrans, a, b⟩ =
    if s.block.phase = .done ∧ a < s.n then (s.transEntry a).setWidth 32
    else (s.free 18 spaceTrans a).setWidth 32 := rfl

theorem hostReadValue_toklen : s.hostReadValue ⟨spaceToklen, a, b⟩ =
    if s.block.phase = .done ∧ a < s.n then (s.toklenEntry a).setWidth 32
    else (s.free 7 spaceToklen a).setWidth 32 := rfl

theorem hostReadValue_tok : s.hostReadValue ⟨spaceTok, a, b⟩ =
    if s.block.phase = .done ∧ a < s.n ∧ b < (s.toklenEntry a).toNat then
      (s.tokByte a b).setWidth 32
    else (s.free 8 spaceTok (tokKey a b)).setWidth 32 := rfl

end

/-- Settles O44: inside its range a read is of the entry, and a written entry is what was
written. -/
theorem bufferAndTableReads : Obligations.BufferAndTableReads := by
  refine fun s a b => ⟨fun x hp ha hx => ?_, fun x hp ha hx => ?_, fun hd => ⟨fun x ha hx => ?_,
    fun x ha hx => ?_, fun x ha hx => ?_, fun l x ha hl hb hx => ?_⟩⟩
  · rw [hostReadValue_ref, if_pos ⟨hp, ha⟩, State.refByte, hx, Option.getD_some]
  · rw [hostReadValue_tgt, if_pos ⟨hp, ha⟩, State.tgtByte, hx, Option.getD_some]
  · rw [hostReadValue_cost, if_pos ⟨hd, ha⟩, costEntry_of_read hx]
  · rw [hostReadValue_trans, if_pos ⟨hd, ha⟩, State.transEntry, hx, Option.getD_some]
  · rw [hostReadValue_toklen, if_pos ⟨hd, ha⟩, State.toklenEntry, hx, Option.getD_some]
  · have hlen : s.toklenEntry a = l := by rw [State.toklenEntry, hl, Option.getD_some]
    rw [hostReadValue_tok, hlen, if_pos ⟨hd, ha, hb⟩, State.tokByte, hx, Option.getD_some]

/-- Settles O45: the step handles the event, and a read sets `rdata` alone. -/
theorem readsChangeNothing : Obligations.ReadsChangeNothing :=
  fun _ _ _ hin => ⟨_, step_of_event hin, rfl, rfl, rfl, rfl, rfl⟩

/-! ## The read-out walk -/

section
variable (s : State) (fuel : Nat) (acc : List Byte)

theorem walk_at_end : s.walk fuel s.n acc = .stream acc := by
  cases fuel with
  | zero => rfl
  | succ fuel => rw [State.walk, if_pos rfl]

variable {o : Nat} (ho : o ≠ s.n)
include ho

theorem walk_nonForward
    (ht : (s.hostReadValue { space := spaceTrans, index := o }).toNat ≤ o) :
    s.walk (fuel + 1) o acc = .nonForward := by
  simp only [State.walk, if_neg ho, if_pos ht]

theorem walk_outOfBounds
    (hlt : o < (s.hostReadValue { space := spaceTrans, index := o }).toNat)
    (ht : s.n < (s.hostReadValue { space := spaceTrans, index := o }).toNat) :
    s.walk (fuel + 1) o acc = .outOfBounds := by
  simp only [State.walk, if_neg ho, if_neg (Nat.not_le.2 hlt), if_pos ht]

end

/-- Settles O53: the event stores the walk, and one lemma per way the walk stops. -/
theorem readOutWalkReportsBadTransitions : Obligations.ReadOutWalkReportsBadTransitions :=
  fun s => ⟨fun _ hin => ⟨_, step_of_event hin, rfl, rfl, rfl, rfl, rfl⟩, walk_at_end s,
    fun fuel _ acc ho => ⟨walk_nonForward s fuel acc ho, walk_outOfBounds s fuel acc ho⟩⟩

/-! ## Reset and the loading of a consumer -/

/-- Settles O46: the step handles the event, and no memory lists an entry. -/
theorem resetClearsTheControlState : Obligations.ResetClearsTheControlState :=
  fun _ _ hin => ⟨_, step_of_event hin, rfl, rfl, rfl, rfl, rfl,
    fun _ => ⟨rfl, rfl, rfl, rfl, rfl, rfl⟩, rfl, rfl⟩

/-- An image written from index 0 into an empty memory reads as its bytes, and past its end as
nothing. -/
theorem read_writeAll_nil {w : Nat} (vs : List (BitVec w)) (a : Nat) :
    Memory.read (Memory.writeAll [] 0 vs) a = vs[a]? := by
  rw [Memory.read_writeAll]
  split
  · rw [Nat.sub_zero]
  · next h => rw [Memory.read_nil, List.getElem?_eq_none (by omega)]

/-- Settles O54: the step handles the event, and the image is written from index 0. -/
theorem loadingStartsAConsumer : Obligations.LoadingStartsAConsumer :=
  fun _ ref _ _ _ hin => ⟨_, step_of_event hin, rfl, rfl, rfl, rfl, read_writeAll_nil ref,
    fun _ => rfl, rfl, rfl⟩

end Sys2Proof.Machine
end
